-- ==== Sys2Proof/Word.lean ====
section
/-! DEFINITION. The value types of the block: words, half-words, bytes, samples and frames (spec/00_scope.md R10 to R13). -/

namespace Sys2Proof

/-- A word of the command stream, a payload word or a response (R90, R91, R96). -/
abbrev Word := BitVec 32

/-- A 16-bit field: `IMM`, `VAL`, a register of the register map (R41, R90, R96). -/
abbrev Half := BitVec 16

/-- A byte or a Hamming codeword (R12). -/
abbrev Byte := BitVec 8

/-- A nibble (R12). -/
abbrev Nibble := BitVec 4

/-- A sample: a 16-bit two's-complement integer, read with `BitVec.toInt` (R11). -/
abbrev Sample := BitVec 16

/-- A frame or a block of samples, index 0 first in time (R11, R64). -/
abbrev Frame := List Sample

/-- A symbol, a bit or a polarity: `true` is 1 (mark), `false` is 0 (space) (R10). -/
abbrev Bit := Bool

end Sys2Proof
end

