-- ==== Sys2Proof/Config.lean ====
section
/-! DEFINITION. The configuration record `CFG` a block is constructed from (spec/00_scope.md R7 to R9), and the one value the spec leaves without a statement (notes/assumptions/5.md). -/

namespace Sys2Proof

/-- The line coding, chosen at construction (R7, R140). -/
inductive Variant where
  | standard
  | nrzi
  deriving DecidableEq, Repr

/-- `CFG`: fixed while the block exists (R7). `FRAME_SIZE` and `BUF_CAP` are derived from it. -/
structure Cfg where
  sampleRate : Nat
  baud       : Nat
  fMark      : Nat
  fSpace     : Nat
  variant    : Variant
  amp        : Nat
  tieBit     : Bit
  deriving DecidableEq, Repr

/-- `FRAME_SIZE = SAMPLE_RATE / BAUD`, samples per frame (R7). -/
def Cfg.frameSize (c : Cfg) : Nat := c.sampleRate / c.baud

/-- `BUF_CAP = 2 * FRAME_SIZE`, the synchronizer buffer's capacity (R7). -/
def Cfg.bufCap (c : Cfg) : Nat := 2 * c.frameSize

/-- `tone_freq(s)`: `F_MARK` for mark, `F_SPACE` for space (R10). -/
def Cfg.toneFreq (c : Cfg) (s : Bit) : Nat := if s then c.fMark else c.fSpace

/-- The validity predicate on `CFG` (R8, R9): a configuration that fails it has no block. -/
def Cfg.valid (c : Cfg) : Bool :=
  decide (1 ≤ c.sampleRate) && decide (1 ≤ c.baud) && decide (c.sampleRate % c.baud = 0)
    && decide (1 ≤ c.amp) && decide (c.amp ≤ 32767)
    && decide (1 ≤ c.fMark) && decide (1 ≤ c.fSpace)
    && decide (2 ≤ c.frameSize) && decide (c.frameSize ≤ 32767)

/-- The configurations this hardware offers: 48000 samples per second and a selectable baud (R7, last column).
1800 is selectable and fails `Cfg.valid` (R8). -/
def Cfg.onThisHardware (c : Cfg) : Bool :=
  decide (c.sampleRate = 48000) && decide (c.baud ∈ [30, 300, 600, 1200, 1800, 2400])

/-- The configuration `State.reset` is built with. The tones and the tie bit are the defaults of R7; baud, variant
and amplitude have no default in the spec: DESIGN CHOICE, notes/assumptions/2.md. -/
def Cfg.default : Cfg :=
  { sampleRate := 48000, baud := 2400, fMark := 1200, fSpace := 2400
    variant := .standard, amp := 32767, tieBit := false }

/-- FREE VALUE: what `CFG_BAUD`, a 16-bit register, reads as when `BAUD` does not fit 16 bits. R41 and R42 state no
such value (DESIGN CHOICE, notes/assumptions/5.md). It never arises on this hardware. -/
opaque Config.freeBaudReading : Nat → Half

end Sys2Proof
end

