-- ==== Sys2Proof/Syntax.lean ====
section
/-! DEFINITION. The thirteen operations as syntax (spec/30_encoding.md R90 to R93, spec/opcode_table.json). -/

namespace Sys2Proof

/-- The operation names, one per row of spec/opcode_table.json: what `OPC` alone selects (R92). -/
inductive Op where
  | synth | lenc | txbit | txbyte | detect | ldec | rxframe | spush | rxpush | henc | hdec | rdreg | sreset
  deriving DecidableEq, Repr

/-- One command: an operation with its operand, and its payload words where it owns some.
The payload words are kept whole, reserved bits included, because a bad payload word is reported only after the
length check (R100, R260; notes/assumptions/6.md). The length `L` of `SPUSH` and `RXPUSH` is the payload's length. -/
inductive Instr where
  | synth (s : Bit)
  | lenc (b : Bit)
  | txbit (b : Bit)
  | txbyte (v : Byte)
  | detect (pay : List Word)
  | ldec (p : Bit)
  | rxframe (pay : List Word)
  | spush (pay : List Word)
  | rxpush (pay : List Word)
  | henc (n : Nibble)
  | hdec (c : Byte)
  | rdreg (idx : Byte)
  | sreset
  deriving DecidableEq, Repr

/-- The operation a command is of. -/
def Instr.op : Instr → Op
  | .synth _ => .synth
  | .lenc _ => .lenc
  | .txbit _ => .txbit
  | .txbyte _ => .txbyte
  | .detect _ => .detect
  | .ldec _ => .ldec
  | .rxframe _ => .rxframe
  | .spush _ => .spush
  | .rxpush _ => .rxpush
  | .henc _ => .henc
  | .hdec _ => .hdec
  | .rdreg _ => .rdreg
  | .sreset => .sreset

/-- The payload words that follow the command word (R91). -/
def Instr.payload : Instr → List Word
  | .detect pay => pay
  | .rxframe pay => pay
  | .spush pay => pay
  | .rxpush pay => pay
  | .synth _ => []
  | .lenc _ => []
  | .txbit _ => []
  | .txbyte _ => []
  | .ldec _ => []
  | .henc _ => []
  | .hdec _ => []
  | .rdreg _ => []
  | .sreset => []

/-- The length of a command in words, `1 + paylen` (R94). -/
def Instr.length (i : Instr) : Nat := 1 + i.payload.length

end Sys2Proof
end

