-- ==== Sys2Proof/WellFormed.lean ====
section
/-! DEFINITION. Which commands can stand in a command stream of a block with configuration `CFG` (spec/30_encoding.md R94). -/

namespace Sys2Proof

/-- A frame operation owns exactly `FRAME_SIZE` payload words (R94, R164). -/
def framePayloadOk (c : Cfg) (pay : List Word) : Bool := decide (pay.length = c.frameSize)

/-- A block operation owns `L = IMM[15:0]` payload words, so at most 65535 (R93, R94). -/
def blockPayloadOk (pay : List Word) : Bool := decide (pay.length ≤ 65535)

/-- Well-formedness of a command under a configuration. The other operands are right by their types (R93). -/
def Instr.wf (c : Cfg) : Instr → Bool
  | .detect pay => framePayloadOk c pay
  | .rxframe pay => framePayloadOk c pay
  | .spush pay => blockPayloadOk pay
  | .rxpush pay => blockPayloadOk pay
  | .synth _ => true
  | .lenc _ => true
  | .txbit _ => true
  | .txbyte _ => true
  | .ldec _ => true
  | .henc _ => true
  | .hdec _ => true
  | .rdreg _ => true
  | .sreset => true

end Sys2Proof
end

