-- ==== Sys2Proof/Decode.lean ====
section
/-! DEFINITION. Decoding and encoding of commands (spec/30_encoding.md R90 to R95, R100), total on any words and rejecting by name. -/

namespace Sys2Proof

/-! ### Fields of a command word (R90) -/

/-- `OPC`, bits [31:24]. -/
def opc (w : Word) : Byte := w.extractLsb' 24 8

/-- `RSV`, bits [23:16], must be 0. -/
def rsv (w : Word) : Byte := w.extractLsb' 16 8

/-- `IMM`, bits [15:0]. -/
def imm (w : Word) : Half := w.extractLsb' 0 16

/-! ### The opcode map (R92) and the must-be-0 bits (R93) -/

/-- The operation code of each operation (R92). -/
def Op.code : Op → Byte
  | .synth => 0x01#8
  | .lenc => 0x02#8
  | .txbit => 0x03#8
  | .txbyte => 0x04#8
  | .detect => 0x08#8
  | .ldec => 0x09#8
  | .rxframe => 0x0A#8
  | .spush => 0x0C#8
  | .rxpush => 0x0D#8
  | .henc => 0x10#8
  | .hdec => 0x11#8
  | .rdreg => 0x20#8
  | .sreset => 0x3F#8

/-- The operation an operation code selects; `none` for every reserved value (R92). -/
def Op.ofCode (v : Byte) : Option Op :=
  if v = 0x01#8 then some .synth
  else if v = 0x02#8 then some .lenc
  else if v = 0x03#8 then some .txbit
  else if v = 0x04#8 then some .txbyte
  else if v = 0x08#8 then some .detect
  else if v = 0x09#8 then some .ldec
  else if v = 0x0A#8 then some .rxframe
  else if v = 0x0C#8 then some .spush
  else if v = 0x0D#8 then some .rxpush
  else if v = 0x10#8 then some .henc
  else if v = 0x11#8 then some .hdec
  else if v = 0x20#8 then some .rdreg
  else if v = 0x3F#8 then some .sreset
  else none

/-- The bits of `IMM` that must be 0 for each operation (R93). -/
def Op.immZero : Op → Half
  | .synth => 0xFFFE#16
  | .lenc => 0xFFFE#16
  | .txbit => 0xFFFE#16
  | .ldec => 0xFFFE#16
  | .txbyte => 0xFF00#16
  | .hdec => 0xFF00#16
  | .rdreg => 0xFF00#16
  | .henc => 0xFFF0#16
  | .spush => 0x0000#16
  | .rxpush => 0x0000#16
  | .detect => 0xFFFF#16
  | .rxframe => 0xFFFF#16
  | .sreset => 0xFFFF#16

/-- `paylen(w)`: how many payload words a command word owns, whether or not it is otherwise legal (R94). -/
def paylen (c : Cfg) (w : Word) : Nat :=
  if opc w = 0x08#8 ∨ opc w = 0x0A#8 then c.frameSize
  else if opc w = 0x0C#8 ∨ opc w = 0x0D#8 then (imm w).toNat
  else 0

/-! ### Decoding (R100) -/

/-- The command of an operation, from the low field of `IMM` it reads (R93) and its payload words. -/
def Op.command (op : Op) (m : Half) (pay : List Word) : Instr :=
  match op with
  | .synth => .synth (m.getLsbD 0)
  | .lenc => .lenc (m.getLsbD 0)
  | .txbit => .txbit (m.getLsbD 0)
  | .txbyte => .txbyte (m.extractLsb' 0 8)
  | .detect => .detect pay
  | .ldec => .ldec (m.getLsbD 0)
  | .rxframe => .rxframe pay
  | .spush => .spush pay
  | .rxpush => .rxpush pay
  | .henc => .henc (m.extractLsb' 0 4)
  | .hdec => .hdec (m.extractLsb' 0 8)
  | .rdreg => .rdreg (m.extractLsb' 0 8)
  | .sreset => .sreset

/-- Why the words at the command pointer give no command. -/
inductive DecodeError where
  /-- The stream holds no word there (R102). -/
  | noWord
  /-- The command word's payload words are not all present (R102). -/
  | incomplete
  /-- `OPC` is reserved (R253). -/
  | illegalOpcode (code : Byte)
  /-- `RSV` or a must-be-0 bit of `IMM` is not 0; the command owns `n` payload words (R94, R254). -/
  | illegalField (n : Nat)
  deriving DecidableEq, Repr

/-- Decode the command at the head of a word list, in the order of R100 up to the checks that need the state:
payload present, `OPC` known, must-be-0 bits 0. Answers the command and the words after it. -/
def decode (c : Cfg) : List Word → Except DecodeError (Instr × List Word)
  | [] => .error .noWord
  | w :: rest =>
    if rest.length < paylen c w then .error .incomplete
    else
      match Op.ofCode (opc w) with
      | none => .error (.illegalOpcode (opc w))
      | some op =>
        if rsv w = 0#8 ∧ imm w &&& op.immZero = 0#16 then
          .ok (op.command (imm w) (rest.take (paylen c w)), rest.drop (paylen c w))
        else .error (.illegalField (paylen c w))

/-! ### Encoding (R90 to R93) -/

/-- A bit as a 16-bit value, 0 or 1. -/
def bitHalf (b : Bit) : Half := (BitVec.ofBool b).setWidth 16

/-- The `IMM` field of a command (R93). -/
def Instr.imm : Instr → Half
  | .synth s => bitHalf s
  | .lenc b => bitHalf b
  | .txbit b => bitHalf b
  | .ldec p => bitHalf p
  | .txbyte v => v.setWidth 16
  | .hdec v => v.setWidth 16
  | .rdreg v => v.setWidth 16
  | .henc n => n.setWidth 16
  | .spush pay => BitVec.ofNat 16 pay.length
  | .rxpush pay => BitVec.ofNat 16 pay.length
  | .detect _ => 0#16
  | .rxframe _ => 0#16
  | .sreset => 0#16

/-- A command word from its operation code and `IMM`, `RSV` zero (R90). -/
def commandWord (code : Byte) (m : Half) : Word := code ++ 0#8 ++ m

/-- The words of a command: the command word, then its payload (R90, R91). -/
def encode (i : Instr) : List Word := commandWord i.op.code i.imm :: i.payload

/-! ### The opcode table, row by row -/

/-- A row of spec/opcode_table.json: a word `w` is of the row when `w &&& mask = val`. -/
structure OpRow where
  op   : Op
  val  : Word
  mask : Word
  deriving DecidableEq, Repr

/-- spec/opcode_table.json's `match` and `mask` columns, in its order. -/
def opcodeTable : List OpRow :=
  [ ⟨.synth,   0x01000000#32, 0xFFFFFFFE#32⟩,
    ⟨.lenc,    0x02000000#32, 0xFFFFFFFE#32⟩,
    ⟨.txbit,   0x03000000#32, 0xFFFFFFFE#32⟩,
    ⟨.txbyte,  0x04000000#32, 0xFFFFFF00#32⟩,
    ⟨.detect,  0x08000000#32, 0xFFFFFFFF#32⟩,
    ⟨.ldec,    0x09000000#32, 0xFFFFFFFE#32⟩,
    ⟨.rxframe, 0x0A000000#32, 0xFFFFFFFF#32⟩,
    ⟨.spush,   0x0C000000#32, 0xFFFF0000#32⟩,
    ⟨.rxpush,  0x0D000000#32, 0xFFFF0000#32⟩,
    ⟨.henc,    0x10000000#32, 0xFFFFFFF0#32⟩,
    ⟨.hdec,    0x11000000#32, 0xFFFFFF00#32⟩,
    ⟨.rdreg,   0x20000000#32, 0xFFFFFF00#32⟩,
    ⟨.sreset,  0x3F000000#32, 0xFFFFFFFF#32⟩ ]

/-- The word matches the row. -/
def OpRow.hits (r : OpRow) (w : Word) : Bool := decide (w &&& r.mask = r.val)

/-! ### Words of a table row -/

/-- `n` words cut from a number, the low 32 bits first. -/
def wordsOf : Nat → Nat → List Word
  | 0, _ => []
  | n + 1, v => BitVec.ofNat 32 v :: wordsOf n (v >>> 32)

/-- The words of the command whose bits are the low `nbits` bits of `w`, bit 0 the least significant bit of the first
word, every later bit 0: the command word and as many payload words as it owns. -/
def tableWords (c : Cfg) (nbits w : Nat) : List Word :=
  let v := w % 2 ^ nbits
  wordsOf (1 + paylen c (BitVec.ofNat 32 v)) v

/-- What the decoder reads from a table row's word, under the configuration of `State.reset`. -/
def decodeTableWord (nbits w : Nat) : Option Instr :=
  match decode Cfg.default (tableWords Cfg.default nbits w) with
  | .ok (i, _) => some i
  | .error _ => none

end Sys2Proof
end

