-- ==== Sys2Proof/Machine/State.lean ====
section
/-! DEFINITION. The state of the block (spec/10_state.md, spec/20_memory.md), the state after reset, and the reasons a step can stop. -/

namespace Sys2Proof.Machine

/-- `FS_STATE`, the synchronizer's state (R26). -/
inductive FsState where
  | seeking
  | emitting
  deriving DecidableEq, Repr

/-- A change of `RECEIVING` (R27, R62). -/
inductive RxEvent where
  | active
  | inactive
  deriving DecidableEq, Repr

/-- An event of the trace (R62). -/
inductive Event where
  /-- `TXS(f)`: a frame to be sent. -/
  | txs (f : Frame)
  /-- `ALN(f)`: an aligned frame. -/
  | aln (f : Frame)
  /-- `RXB(b)`: a received byte. -/
  | rxb (b : Byte)
  /-- `EVT(ACTIVE)` or `EVT(INACTIVE)`: a change of `RECEIVING`. -/
  | evt (e : RxEvent)
  /-- `RSP(w)`: the response word of a command. -/
  | rsp (w : Word)
  deriving DecidableEq, Repr

/-- `STAT`, the status of a response (R97). -/
inductive Stat where
  | ok
  | illegalOpcode
  | illegalField
  | badLength
  | uncorrectable
  deriving DecidableEq, Repr

/-- Everything the spec gives the block. `cfg` is the configuration it was constructed with, which no step writes
(R7; notes/assumptions/1.md); `cmd` and `closed` are the host's command stream so far (R61, R102). -/
structure State where
  /-- `CFG` (R7). -/
  cfg       : Cfg
  /-- `ENC_POL`, mark is `true` (R21). -/
  encPol    : Bit
  /-- `DEC_POL`, mark is `true` (R22). -/
  decPol    : Bit
  /-- `RX_SR` (R23). -/
  rxSr      : Byte
  /-- `RX_CNT` (R24). -/
  rxCnt     : BitVec 3
  /-- `FS_BUF`, the oldest sample first (R25). -/
  fsBuf     : List Sample
  /-- `FS_STATE` (R26). -/
  fsState   : FsState
  /-- `RECEIVING` (R27). -/
  receiving : Bool
  /-- `CMDPTR` (R28). -/
  cmdptr    : Nat
  /-- The command stream: the words the host has written so far (R61). -/
  cmd       : List Word
  /-- The host has declared the command stream closed (R102). -/
  closed    : Bool
  /-- The trace, the oldest event first (R62). -/
  trace     : List Event
  deriving DecidableEq, Repr

/-- Why the machine stops. -/
inductive Fault where
  /-- Raised by `step` and by `construct`: the configuration is not valid, so there is no block and nothing executes
  (R8, R257). Safe: no run of such a configuration exists. -/
  | configError
  /-- Raised by `step`: the stream is closed inside a command, which never executes; the run is stuck and not final
  (R102). Safe: the hardware has no next state either. -/
  | incompleteCommand
  deriving DecidableEq, Repr

/-- Why an instruction has no meaning in the model. -/
inductive Refusal where
  /-- Raised by `exec` for an instruction that has no meaning yet; no instruction raises it now. Safe. -/
  | notModelled (mnemonic : String)
  deriving DecidableEq, Repr

/-- The state after hardware reset of a block constructed with `c` (R50, R280): no word written yet, empty trace. -/
def State.resetWith (c : Cfg) : State :=
  { cfg := c
    encPol := true, decPol := true
    rxSr := 0#8, rxCnt := 0#3
    fsBuf := [], fsState := .seeking, receiving := false
    cmdptr := 0, cmd := [], closed := false, trace := [] }

/-- The state after hardware reset of the block with the configuration `Cfg.default` (notes/assumptions/2.md). -/
def State.reset : State := State.resetWith Cfg.default

end Sys2Proof.Machine
end

