-- ==== Sys2Proof/Machine/Ops.lean ====
section
/-! DEFINITION. The operations every meaning is written over: emitting, responding, ending a command, raising an error, the sample buffer, resetting. -/

namespace Sys2Proof.Machine

/-- What a command's meaning answers. -/
abbrev Result := Host.Outcome State Fault Refusal

/-! ### Trace and response -/

/-- `emit(PORT, v)`: append one event to the trace; it always succeeds (R14, R62, R69). -/
def State.emit (e : Event) (s : State) : State := { s with trace := s.trace ++ [e] }

/-- The `STAT` codes (R97). -/
def Stat.code : Stat → BitVec 4
  | .ok => 0
  | .illegalOpcode => 1
  | .illegalField => 2
  | .badLength => 3
  | .uncorrectable => 4

/-- The response word: bits [31:28] `STAT`, [27:16] zero, [15:0] `VAL` (R96). -/
def responseWord (st : Stat) (val : Half) : Word := st.code ++ 0#12 ++ val

/-- `respond(stat, val)`: emit the command's response (R96). -/
def State.respond (st : Stat) (val : Half) (s : State) : State := s.emit (.rsp (responseWord st val))

/-- `CMDPTR <- CMDPTR + n` (R28, R100). -/
def State.advance (n : Nat) (s : State) : State := { s with cmdptr := s.cmdptr + n }

/-- End a command of `n` words with `respond(OK, val)`, past the command (R100). -/
def complete (n : Nat) (val : Half) (s : State) : Result := .next ((s.respond .ok val).advance n)

/-- TAKING AN ERROR, the block's one form of exception (R252): the response carries the error's code and `VAL`, no
data register is written and nothing else is emitted, and `CMDPTR` advances past the whole command of `n` words.
There is no vector, saved pointer or mode, and so no return (R262, R263). -/
def raise (err : Stat) (val : Half) (n : Nat) (s : State) : Result := .next ((s.respond err val).advance n)

/-! ### The synchronizer's buffer (R81) -/

/-- Append a block at the back of `FS_BUF`, in order: `push_back` of each of its samples (R182). -/
def State.pushBlock (xs : List Sample) (s : State) : State := { s with fsBuf := s.fsBuf ++ xs }

/-- The zero strip on a buffer's contents: while the two front samples are both 0, drop the front one (R183). -/
def stripZeros : List Sample → List Sample
  | [] => []
  | [a] => [a]
  | a :: b :: rest => if a = 0#16 ∧ b = 0#16 then stripZeros (b :: rest) else a :: b :: rest

/-- The zero strip of `FS_BUF` (R183). -/
def State.strip (s : State) : State := { s with fsBuf := stripZeros s.fsBuf }

/-- The next frame of `FS_BUF`: its `n` front samples, oldest first (R185). -/
def State.frontFrame (n : Nat) (s : State) : Frame := s.fsBuf.take n

/-- Remove the `n` front samples from `FS_BUF`: `pop_front`, `n` times (R185). -/
def State.dropFrame (n : Nat) (s : State) : State := { s with fsBuf := s.fsBuf.drop n }

/-! ### Reset of the data registers -/

/-- Every data register to its reset value (R50, R231); configuration, `CMDPTR`, stream and trace stay (R282). -/
def State.resetData (s : State) : State :=
  { s with
    encPol := true, decPol := true
    rxSr := 0#8, rxCnt := 0#3
    fsBuf := [], fsState := .seeking, receiving := false }

end Sys2Proof.Machine
end

