-- ==== Sys2Proof/Machine/Operands.lean ====
section
/-! DEFINITION. Operand forms: payload words as samples (spec/30_encoding.md R91), the byte serializer (spec/40_tone_synth.md R125), response values. -/

namespace Sys2Proof.Machine

/-- `SMP`, bits [15:0] of a payload word: one sample (R91). -/
def smp (w : Word) : Sample := w.extractLsb' 0 16

/-- `PRSV`, bits [31:16] of a payload word, must be 0 (R91). -/
def prsv (w : Word) : Half := w.extractLsb' 16 16

/-- No payload word has a reserved bit set (R91, R254). -/
def payloadClean (pay : List Word) : Bool := pay.all (fun w => decide (prsv w = 0#16))

/-- The samples of a payload, in time order (R91). -/
def samples (pay : List Word) : List Sample := pay.map smp

/-- `iter_symbols(b)`: the 8 bits of a byte, most significant first (R125). -/
def iterSymbols (b : Byte) : List Bit :=
  [b.getLsbD 7, b.getLsbD 6, b.getLsbD 5, b.getLsbD 4, b.getLsbD 3, b.getLsbD 2, b.getLsbD 1, b.getLsbD 0]

/-- A response value of two byte-wide fields, `(hi << 8) | lo` (R166, R188). -/
def packVal (hi lo : Nat) : Half := (BitVec.ofNat 16 hi <<< 8) ||| BitVec.ofNat 16 lo

end Sys2Proof.Machine
end

