-- ==== Sys2Proof/Machine/Flags.lean ====
section
/-! DEFINITION. The one-bit status of the block: `RECEIVING`, its two lines, its events, and the `STATUS` register (spec/10_state.md R27, R30, R43; spec/43_frame_sync.md R186). The block has no arithmetic flags (R30). -/

namespace Sys2Proof.Machine

/-- The line `rx_active` (R27). -/
def State.rxActive (s : State) : Bool := s.receiving

/-- The line `rx_inactive`, the complement of `rx_active` (R27). -/
def State.rxInactive (s : State) : Bool := !s.receiving

/-- Assert the receiving status: a change from 0 to 1 emits `EVT(ACTIVE)`, an asserted status emits nothing (R186). -/
def State.assertReceiving (s : State) : State :=
  if s.receiving then s else ({ s with receiving := true } : State).emit (.evt .active)

/-- Clear the receiving status and emit `EVT(INACTIVE)` (R186). -/
def State.clearReceiving (s : State) : State :=
  ({ s with receiving := false } : State).emit (.evt .inactive)

/-- The `STATUS` register: [15:7] zero, [6:4] `RX_CNT`, [3] `DEC_POL`, [2] `ENC_POL`, [1] `~RECEIVING`, [0] `RECEIVING` (R43). -/
def State.status (s : State) : Half :=
  0#9 ++ s.rxCnt ++ BitVec.ofBool s.decPol ++ BitVec.ofBool s.encPol
    ++ BitVec.ofBool s.rxInactive ++ BitVec.ofBool s.rxActive

end Sys2Proof.Machine
end

