-- ==== Sys2Proof/Machine/ToneRom.lean ====
section
/-! DEFINITION. The tone ROM (spec/40_tone_synth.md R120, R121), computed exactly over the integers for every configuration.

`TONE[s][n] = rnd(AMP * cos(2 * pi * tone_freq(s) * n / SAMPLE_RATE))` with a real cosine. The model holds no real
number: it decides, exactly, on which side of a rounding boundary the product lies. The boundary below the integer
`m` is `cos x >= (2m - 1) / (2 AMP)`, with `x = pi h / d` in `[0, pi/2]`. Let `phi` be the angle in `[0, pi]` whose
cosine is that fraction `a / b`; the boundary is met exactly when `h * pi <= d * phi`, that is, when `d` rotations by `phi` make
at least `h` half turns. Rotations by `phi` of a vector scaled to integers count half turns by the sign of its sine. -/

namespace Sys2Proof.Machine

/-- Half turns completed by `j` more rotations by the angle whose cosine is `a / b`, where `e = b * b - a * a`: `u` is
the cosine so far scaled by `b ^ k`, `v` the sine so far over the sine of one rotation scaled by `b ^ (k - 1)`, and
`w` the half turns so far. A rotation completes a half turn when the side of the axis changes. -/
def halfTurns (a e : Int) : Nat → Int → Int → Nat → Nat
  | 0, _, _, w => w
  | j + 1, u, v, w =>
    let v' := a * v + u
    let u' := a * u - e * v
    let lower := decide (v' < 0) || (decide (v' = 0) && decide (u' < 0))
    halfTurns a e j u' v' (if lower == decide (w % 2 = 1) then w else w + 1)

/-- `m <= AMP` and `cos(pi * h / d) >= (2m - 1) / (2 AMP)`: the product is at least `m - 1/2`. -/
def reaches (amp h d m : Nat) : Bool :=
  decide (m ≤ amp) &&
    decide (h ≤ halfTurns (2 * (m : Int) - 1)
      ((2 * (amp : Int)) * (2 * (amp : Int)) - (2 * (m : Int) - 1) * (2 * (m : Int) - 1)) d 1 0 0)

/-- The greatest number of at most `k` more binary digits, from `m` on, that passes a test the smaller ones pass too. -/
def greatest (test : Nat → Bool) : Nat → Nat → Nat
  | 0, m => m
  | k + 1, m => greatest test k (if test (m + 2 ^ k) then m + 2 ^ k else m)

/-- A fixed-point estimate of `AMP * cos(pi * h / d)`, used only to save search: `nearestCos` checks it exactly.
10851744800546 is `pi * pi * 2 ^ 40`. -/
def cosEstimate (amp h d : Nat) : Nat :=
  let t := 10851744800546 * (h * h) / (d * d)
  let r := [132, 90, 56, 30, 12, 2].foldl (fun r k => 2 ^ 40 - t * r / (2 ^ 40 * k)) (2 ^ 40)
  (2 * amp * r + 2 ^ 40) / 2 ^ 41

/-- `rnd(AMP * cos(pi * h / d))` for `0 <= h / d <= 1/2` (R121): the greatest `m` that is 0 or is reached. The
estimate is taken when it is that number, else the search is made. -/
def nearestCos (amp h d : Nat) : Nat :=
  let h' := h / h.gcd d
  let d' := d / h.gcd d
  let g := cosEstimate amp h' d'
  if (decide (g = 0) || reaches amp h' d' g) && !reaches amp h' d' (g + 1) then g
  else greatest (reaches amp h' d') 15 0

/-- `rnd(AMP * cos(pi * h / d))` for `0 <= h <= d`, using `cos(pi - x) = -cos x` and `rnd(-x) = -rnd(x)` (R121). -/
def roundedCos (amp h d : Nat) : Int :=
  if 2 * h ≤ d then (nearestCos amp h d : Int) else -(nearestCos amp (d - h) d : Int)

/-- `TONE[s][n]` as an integer: the angle is `2 pi p / SAMPLE_RATE` with `p` the phase modulo a turn, folded into half a
turn by `cos(-x) = cos x` (R120, R122 (c)). -/
def toneInt (c : Cfg) (s : Bit) (n : Nat) : Int :=
  let p := c.toneFreq s * n % c.sampleRate
  roundedCos c.amp (2 * min p (c.sampleRate - p)) c.sampleRate

/-- `TONE[s][n]`, stored as a 16-bit two's-complement sample (R120, R121). -/
def tone (c : Cfg) (s : Bit) (n : Nat) : Sample := BitVec.ofInt 16 (toneInt c s n)

/-- The row `TONE[s]` of the tone ROM: one frame of `FRAME_SIZE` samples (R47, R120). -/
def toneFrame (c : Cfg) (s : Bit) : Frame := (List.range c.frameSize).map (tone c s)

end Sys2Proof.Machine
end

