-- ==== Sys2Proof/Machine/LineCode.lean ====
section
/-! DEFINITION. The line coder: `LENC`, `LDEC` (spec/41_line_coding.md). -/

namespace Sys2Proof.Machine

/-- `line_encode(b)`: under `STANDARD` the bit itself; under `NRZI` a 1 flips `ENC_POL` and the symbol is `ENC_POL` (R141). -/
def lineEncode (b : Bit) (s : State) : Bit × State :=
  match s.cfg.variant with
  | .standard => (b, s)
  | .nrzi =>
    let pol := if b then !s.encPol else s.encPol
    (pol, { s with encPol := pol })

/-- `line_decode(p)`: under `STANDARD` the bit itself; under `NRZI` 1 when `p` differs from `DEC_POL`, which becomes `p` (R142). -/
def lineDecode (p : Bit) (s : State) : Bit × State :=
  match s.cfg.variant with
  | .standard => (p, s)
  | .nrzi => (p != s.decPol, { s with decPol := p })

/-- `LENC b` (R143). -/
def execLenc (b : Bit) (s : State) : Result :=
  let r := lineEncode b s
  complete 1 (bitHalf r.1) r.2

/-- `LDEC p` (R144). -/
def execLdec (p : Bit) (s : State) : Result :=
  let r := lineDecode p s
  complete 1 (bitHalf r.1) r.2

end Sys2Proof.Machine
end

