-- ==== Sys2Proof/Machine/BitDetector.lean ====
section
/-! DEFINITION. The bit detector and receive byte assembler: `DETECT`, `RXFRAME` (spec/42_bit_detector.md). -/

namespace Sys2Proof.Machine

/-- The sum of absolute sample-wise differences of two frames, over the integers (R161). -/
def sad (x y : Frame) : Nat := (List.zipWith (fun a b => (a.toInt - b.toInt).natAbs) x y).sum

/-- `dist(x, s)`: the distance of a frame to the reference `TONE[s]` (R160, R161). -/
def toneDist (c : Cfg) (x : Frame) (s : Bit) : Nat := sad x (toneFrame c s)

/-- `detect(x)`: the nearer reference; `TIE_BIT` on a tie (R162, R163). -/
def detect (c : Cfg) (x : Frame) : Bit :=
  if toneDist c x true < toneDist c x false then true
  else if toneDist c x false < toneDist c x true then false
  else c.tieBit

/-- `rx_bit(b)`: shift a logical bit into `RX_SR`; the eighth since the last byte emits `RXB` and answers `true` (R165). -/
def rxBit (b : Bit) (s : State) : Bool × State :=
  let sr : Byte := s.rxSr.extractLsb' 0 7 ++ BitVec.ofBool b
  if s.rxCnt = 7#3 then (true, ({ s with rxSr := sr, rxCnt := 0#3 } : State).emit (.rxb sr))
  else (false, { s with rxSr := sr, rxCnt := s.rxCnt + 1#3 })

/-- One frame of `demodulate`: detect, line-decode, assemble (R166, R188). -/
structure Received where
  bit  : Bit
  byte : Bool
  next : State
  deriving DecidableEq, Repr

/-- Consume one frame: the logical bit, whether it completed a byte, and the state after (R166). -/
def receiveFrame (f : Frame) (s : State) : Received :=
  let d := lineDecode (detect s.cfg f) s
  let r := rxBit d.1 d.2
  ⟨d.1, r.1, r.2⟩

/-- `DETECT` (R164): a bad payload word raises `ILLEGAL_FIELD` with `VAL` 1 (R100, R254). -/
def execDetect (pay : List Word) (s : State) : Result :=
  if payloadClean pay then complete (1 + pay.length) (bitHalf (detect s.cfg (samples pay))) s
  else raise .illegalField 1#16 (1 + pay.length) s

/-- `RXFRAME` (R166): errors as `DETECT`. -/
def execRxframe (pay : List Word) (s : State) : Result :=
  if payloadClean pay then
    let r := receiveFrame (samples pay) s
    complete (1 + pay.length) (packVal r.byte.toNat r.bit.toNat) r.next
  else raise .illegalField 1#16 (1 + pay.length) s

end Sys2Proof.Machine
end

