-- ==== Sys2Proof/Machine/FrameSync.lean ====
section
/-! DEFINITION. The frame synchronizer: `SPUSH`, `RXPUSH` (spec/43_frame_sync.md). -/

namespace Sys2Proof.Machine

/-- Admission of a block of `n` samples: `n >= 1` and it fits the buffer (R181). -/
def State.admits (n : Nat) (s : State) : Bool :=
  decide (1 ≤ n) && decide (s.fsBuf.length + n ≤ s.cfg.bufCap)

/-- What becomes of an aligned frame: the state after, and the bytes completed (0 or 1). -/
abbrev Deliver := Frame → State → State × Nat

/-- One block's outcome: the state, the frames drained and the bytes completed. -/
structure Drained where
  state  : State
  frames : Nat
  bytes  : Nat
  deriving DecidableEq, Repr

/-- The `EMITTING` loop (R185, R186, R187): while a frame's worth is buffered, assert the receiving status, drain
one frame and deliver it. `fuel` bounds the passes; the buffer's length is enough (notes/assumptions/7.md). -/
def emitFrames (deliver : Deliver) : Nat → Drained → Drained
  | 0, r => r
  | fuel + 1, r =>
    let n := r.state.cfg.frameSize
    if n ≤ r.state.fsBuf.length then
      let s := r.state.assertReceiving
      let d := deliver (s.frontFrame n) (s.dropFrame n)
      emitFrames deliver fuel ⟨d.1, r.frames + 1, r.bytes + d.2⟩
    else r

/-- One block through the synchronizer, after admission: append, strip, and the `EMITTING` excursion when a frame's
worth is buffered (the body of R187). -/
def syncBlock (deliver : Deliver) (xs : List Sample) (s : State) : Drained :=
  let t := (s.pushBlock xs).strip
  if t.cfg.frameSize ≤ t.fsBuf.length then
    let r := emitFrames deliver t.fsBuf.length ⟨{ t with fsState := .emitting }, 0, 0⟩
    { r with state := { r.state.clearReceiving with fsState := .seeking } }
  else ⟨t, 0, 0⟩

/-- `SPUSH`'s delivery: the frame goes to the `ALN` port (R187). -/
def deliverAligned : Deliver := fun f s => (s.emit (.aln f), 0)

/-- `RXPUSH`'s delivery: the frame goes to the detector and byte assembler (R188). -/
def deliverReceived : Deliver := fun f s => ((receiveFrame f s).next, (receiveFrame f s).byte.toNat)

/-- `BAD_LENGTH` with `VAL = len(FS_BUF)` (R181, R251). -/
def raiseBadLength (n : Nat) (s : State) : Result := raise .badLength (BitVec.ofNat 16 s.fsBuf.length) n s

/-- `SPUSH L` (R187): the length check goes before the payload check (R100, R260). -/
def execSpush (pay : List Word) (s : State) : Result :=
  if s.admits pay.length then
    if payloadClean pay then
      let r := syncBlock deliverAligned (samples pay) s
      complete (1 + pay.length) (BitVec.ofNat 16 r.frames) r.state
    else raise .illegalField 1#16 (1 + pay.length) s
  else raiseBadLength (1 + pay.length) s

/-- `RXPUSH L` (R188). -/
def execRxpush (pay : List Word) (s : State) : Result :=
  if s.admits pay.length then
    if payloadClean pay then
      let r := syncBlock deliverReceived (samples pay) s
      complete (1 + pay.length) (packVal r.bytes r.frames) r.state
    else raise .illegalField 1#16 (1 + pay.length) s
  else raiseBadLength (1 + pay.length) s

end Sys2Proof.Machine
end

