-- ==== Sys2Proof/Machine/Hamming.lean ====
section
/-! DEFINITION. The Hamming(8,4) codec: `HENC`, `HDEC` (spec/44_hamming.md). -/

namespace Sys2Proof.Machine

/-- `HT[n]`, the codeword of a nibble: data bits in [7:4], parity `p3 p2 p1 p0` in [3:0] (R210, R211). -/
def ht (n : Nibble) : Byte :=
  let d0 := n.getLsbD 0
  let d1 := n.getLsbD 1
  let d2 := n.getLsbD 2
  let d3 := n.getLsbD 3
  let p0 := d0 ^^ d1 ^^ d3
  let p1 := d0 ^^ d2 ^^ d3
  let p2 := d1 ^^ d2 ^^ d3
  let p3 := d0 ^^ d1 ^^ d2 ^^ d3 ^^ p0 ^^ p1 ^^ p2
  n ++ BitVec.ofBool p3 ++ BitVec.ofBool p2 ++ BitVec.ofBool p1 ++ BitVec.ofBool p0

/-- `popcount(v)`: the number of 1 bits (R13). -/
def weight (v : Byte) : Nat := ((List.range 8).map (fun i => (v.getLsbD i).toNat)).sum

/-- The nibbles in scan order, 0 to 15 (R214). -/
def nibbles : List Nibble := (List.range 16).map (BitVec.ofNat 4)

/-- The scan of R214 over the nibbles left: an exact match returns at once, a distance-1 candidate is remembered and
counted, and after the scan the candidate counts only if it is the only one. -/
def hammingScan (c : Byte) : List Nibble → Option Nibble → Nat → Option Nibble
  | [], cand, count => if count = 1 then cand else none
  | n :: rest, cand, count =>
    let d := weight (c ^^^ ht n)
    if d = 0 then some n
    else if d = 1 then hammingScan c rest (some n) (count + 1)
    else hammingScan c rest cand count

/-- `decode(c)`: the nibble, or `none` for Uncorrectable (R214). -/
def hammingDecode (c : Byte) : Option Nibble := hammingScan c nibbles none 0

/-- `HENC n` (R213). -/
def execHenc (n : Nibble) (s : State) : Result := complete 1 ((ht n).setWidth 16) s

/-- `HDEC c` (R215). -/
def execHdec (c : Byte) (s : State) : Result :=
  match hammingDecode c with
  | some n => complete 1 (n.setWidth 16) s
  | none => raise .uncorrectable 0#16 1 s

end Sys2Proof.Machine
end

