-- ==== Sys2Proof/Machine/System.lean ====
section
/-! DEFINITION. System operations: `RDREG`, `SRESET` (spec/45_system_ops.md) and the register map (spec/10_state.md R41 to R43). -/

namespace Sys2Proof.Machine

/-- `CFG_BAUD`: `BAUD` where it fits 16 bits; else a free value (R41, R42; notes/assumptions/5.md). -/
def cfgBaud (c : Cfg) : Half :=
  if c.baud < 65536 then BitVec.ofNat 16 c.baud else Config.freeBaudReading c.baud

/-- `CFG_MODE`: [0] `VARIANT` (1 for `NRZI`), [1] `TIE_BIT`, [15:2] zero (R41). -/
def cfgMode (c : Cfg) : Half :=
  0#14 ++ BitVec.ofBool c.tieBit ++ BitVec.ofBool (decide (c.variant = .nrzi))

/-- `CSR[idx]`: the register map; `none` for a reserved index (R41). -/
def csr (idx : Byte) (s : State) : Option Half :=
  match idx.toNat with
  | 0x00 => some (cfgBaud s.cfg)
  | 0x01 => some (BitVec.ofNat 16 s.cfg.frameSize)
  | 0x02 => some (BitVec.ofNat 16 s.cfg.sampleRate)
  | 0x03 => some (BitVec.ofNat 16 s.cfg.fMark)
  | 0x04 => some (BitVec.ofNat 16 s.cfg.fSpace)
  | 0x05 => some (BitVec.ofNat 16 s.cfg.amp)
  | 0x06 => some (cfgMode s.cfg)
  | 0x08 => some s.status
  | 0x09 => some (s.rxSr.setWidth 16)
  | 0x0A => some (BitVec.ofNat 16 s.fsBuf.length)
  | _ => none

/-- `RDREG idx` (R230): a reserved index raises `ILLEGAL_FIELD` with `VAL` 0. -/
def execRdreg (idx : Byte) (s : State) : Result :=
  match csr idx s with
  | some v => complete 1 v s
  | none => raise .illegalField 0#16 1 s

/-- `SRESET` (R231): emits no `EVT`. -/
def execSreset (s : State) : Result := complete 1 0#16 s.resetData

end Sys2Proof.Machine
end

