-- ==== Sys2Proof/Machine/ToneSynth.lean ====
section
/-! DEFINITION. The tone synthesizer and transmit path: `SYNTH`, `TXBIT`, `TXBYTE` (spec/40_tone_synth.md). -/

namespace Sys2Proof.Machine

/-- Emit the frame of a symbol on `TXS` (R124, R126, R127). -/
def State.sendSymbol (sym : Bit) (s : State) : State := s.emit (.txs (toneFrame s.cfg sym))

/-- Encode one logical bit and send its symbol (R126); answers the symbol. -/
def sendBit (b : Bit) (s : State) : Bit × State :=
  let r := lineEncode b s
  (r.1, r.2.sendSymbol r.1)

/-- Encode and send logical bits in order, shifting each symbol into `v` at bit 0 (the loop of R127). -/
def sendBits : List Bit → Half → State → Half × State
  | [], v, s => (v, s)
  | b :: bs, v, s =>
    let r := sendBit b s
    sendBits bs ((v <<< 1) ||| bitHalf r.1) r.2

/-- `SYNTH s` (R124): past the line coder, so `ENC_POL` is neither read nor written. -/
def execSynth (sym : Bit) (s : State) : Result := complete 1 1#16 (s.sendSymbol sym)

/-- `TXBIT b` (R126). -/
def execTxbit (b : Bit) (s : State) : Result :=
  let r := sendBit b s
  complete 1 (bitHalf r.1) r.2

/-- `TXBYTE B` (R127): most significant bit first. -/
def execTxbyte (v : Byte) (s : State) : Result :=
  let r := sendBits (iterSymbols v) 0#16 s
  complete 1 r.1 r.2

end Sys2Proof.Machine
end

