-- ==== Sys2Proof/Machine/Dispatch.lean ====
section
/-! DEFINITION. One arm per operation (spec/30_encoding.md R92). -/

namespace Sys2Proof.Machine

def exec (i : Instr) (s : State) : Host.Outcome State Fault Refusal :=
  match i with
  | .synth sym => Sys2Proof.Machine.execSynth sym s
  | .lenc b => Sys2Proof.Machine.execLenc b s
  | .txbit b => Sys2Proof.Machine.execTxbit b s
  | .txbyte v => Sys2Proof.Machine.execTxbyte v s
  | .detect pay => Sys2Proof.Machine.execDetect pay s
  | .ldec p => Sys2Proof.Machine.execLdec p s
  | .rxframe pay => Sys2Proof.Machine.execRxframe pay s
  | .spush pay => Sys2Proof.Machine.execSpush pay s
  | .rxpush pay => Sys2Proof.Machine.execRxpush pay s
  | .henc n => Sys2Proof.Machine.execHenc n s
  | .hdec c => Sys2Proof.Machine.execHdec c s
  | .rdreg idx => Sys2Proof.Machine.execRdreg idx s
  | .sreset => Sys2Proof.Machine.execSreset s

end Sys2Proof.Machine
end

