-- ==== Sys2Proof/Machine/Fetch.lean ====
section
/-! DEFINITION. Fetching the command at `CMDPTR` and what happens where there is none to run (spec/30_encoding.md R100, R102). -/

namespace Sys2Proof.Machine

/-- Read and decode the command at `CMDPTR` (R61, R100). -/
def fetch (s : State) : Except DecodeError (Instr × List Word) := decode s.cfg (s.cmd.drop s.cmdptr)

/-- Where no command runs. An absent word: the block waits, or the run is over if the stream is closed; either way
nothing changes (R102; notes/assumptions/3.md). An incomplete command: waits, or is stuck if the stream is closed
(R102; notes/assumptions/4.md). An illegal command word: its error is raised (R95, R253, R254). -/
def rejected (e : DecodeError) (s : State) : Result :=
  match e with
  | .noWord => .next s
  | .incomplete => if s.closed then .fault .incompleteCommand else .next s
  | .illegalOpcode code => raise .illegalOpcode (code.setWidth 16) 1 s
  | .illegalField n => raise .illegalField 0#16 (1 + n) s

/-- A command stream with `ws` standing from word index `p` on; the words before and after them stay. -/
def placeWords (p : Nat) (ws cmd : List Word) : List Word :=
  cmd.take p ++ List.replicate (p - cmd.length) 0 ++ ws ++ cmd.drop (p + ws.length)

end Sys2Proof.Machine
end

