-- ==== Sys2Proof/Machine/Step.lean ====
section
/-! DEFINITION. The step: one command of the stream, performed completely (spec/00_scope.md R17, spec/30_encoding.md R100). -/

namespace Sys2Proof.Machine

/-- One step. A state whose configuration is not valid is no block and executes nothing (R8, R257). -/
def step (s : State) : Host.Outcome State Fault Refusal :=
  if s.cfg.valid then
    match fetch s with
    | .ok (i, _) => exec i s
    | .error e => rejected e s
  else .fault .configError

/-- `s` with the command whose bits are `w` standing in the command stream at `CMDPTR`, payload words included, so
that the next step runs it (notes/assumptions/9.md). -/
def State.withFetchWord (s : State) (nbits w : Nat) : State :=
  { s with cmd := placeWords s.cmdptr (tableWords s.cfg nbits w) s.cmd }

end Sys2Proof.Machine
end

