-- ==== Sys2Proof/Machine/Assembler.lean ====
section
/-! DEFINITION. The assembler of spec/30_encoding.md R98 over parsed lines, and the pseudo-instructions of R99. -/

namespace Sys2Proof.Machine

/-- A sample operand: signed decimal, or the 4-digit hexadecimal of `SMP` (R98). -/
inductive SampleLit where
  | dec (v : Int)
  | hex (v : Half)
  deriving DecidableEq, Repr

/-- A sample list: literals, a name of the preamble, `name*k`, `a ++ b`, and the samples `lo` to `hi - 1` of a list
(R98; the half-open reading of `M[0:13]` is notes/assumptions/10.md). -/
inductive SampleExpr where
  | lits (vs : List SampleLit)
  | named (name : String)
  | times (e : SampleExpr) (k : Nat)
  | append (a b : SampleExpr)
  | slice (e : SampleExpr) (lo hi : Nat)
  deriving Repr

/-- A sample operand's value; `none` outside 16 bits (R11). -/
def SampleLit.value : SampleLit → Option Sample
  | .dec v => if -32768 ≤ v ∧ v ≤ 32767 then some (BitVec.ofInt 16 v) else none
  | .hex v => some v

/-- A sample list's value, given the preamble's names; `none` for an unknown name or a sample out of range. -/
def SampleExpr.value (names : List (String × List Sample)) : SampleExpr → Option (List Sample)
  | .lits vs => vs.mapM SampleLit.value
  | .named n => names.lookup n
  | .times e k => (e.value names).map (fun xs => (List.replicate k xs).flatten)
  | .append a b => (a.value names).bind (fun xs => (b.value names).map (fun ys => xs ++ ys))
  | .slice e lo hi => (e.value names).map (fun xs => (xs.take hi).drop lo)

/-- The symbol operand written `mark` (R98). -/
def markOperand : Nat := 1

/-- The symbol operand written `space` (R98). -/
def spaceOperand : Nat := 0

/-- A line of a program: a command with its operand and sample list, or a pseudo-instruction (R98, R99). The operand of
`SPUSH` and `RXPUSH` may be left out. -/
inductive AsmLine where
  | command (op : Op) (operand : Option Nat) (samples : SampleExpr)
  | txmsg (bytes : List Byte)
  | spushz (len : Nat)
  | rxpushz (len : Nat)
  deriving Repr

/-- A sample as a payload word, `PRSV` zero (R91). -/
def payloadWord (v : Sample) : Word := v.setWidth 32

/-- `TXMSG b0, ..., bk`: one `TXBYTE` a byte, in order (R99). -/
def expandTxmsg (bytes : List Byte) : List Instr := bytes.map .txbyte

/-- `SPUSHZ L`: a block of silence (R99). -/
def expandSpushz (len : Nat) : List Instr := [.spush (List.replicate len (payloadWord 0#16))]

/-- `RXPUSHZ L`: a block of silence (R99). -/
def expandRxpushz (len : Nat) : List Instr := [.rxpush (List.replicate len (payloadWord 0#16))]

/-- The `IMM` a line assembles to: the operand as written, in 16 bits; the length where `SPUSH` or `RXPUSH` has none.
A written length must equal the list's (R98). An operand outside its domain still assembles: the block refuses it. -/
def lineImm (op : Op) (operand : Option Nat) (n : Nat) : Option Nat :=
  match op, operand with
  | .spush, none => some n
  | .rxpush, none => some n
  | .spush, some l => if l = n then some l else none
  | .rxpush, some l => if l = n then some l else none
  | _, none => some 0
  | _, some v => some v

/-- The words of a line, or `none` where it does not assemble. -/
def AsmLine.words (names : List (String × List Sample)) : AsmLine → Option (List Word)
  | .command op operand e =>
    (e.value names).bind fun xs =>
      (lineImm op operand xs.length).bind fun v =>
        if v ≤ 65535 then some (commandWord op.code (BitVec.ofNat 16 v) :: xs.map payloadWord) else none
  | .txmsg bytes => some ((expandTxmsg bytes).flatMap encode)
  | .spushz len => if len ≤ 65535 then some ((expandSpushz len).flatMap encode) else none
  | .rxpushz len => if len ≤ 65535 then some ((expandRxpushz len).flatMap encode) else none

/-- The command stream of a program, one line after another (R98). -/
def assemble (names : List (String × List Sample)) (lines : List AsmLine) : Option (List Word) :=
  (lines.mapM (AsmLine.words names)).map List.flatten

end Sys2Proof.Machine
end

