-- ==== Sys2Proof/Machine/Ports.lean ====
section
/-! DEFINITION. The host's side of the block (spec/20_memory.md R60 to R63, R82): construction, the command stream, the output ports. -/

namespace Sys2Proof.Machine

/-! ### Construction and the command stream -/

/-- Hardware reset is construction: a valid `CFG` gives the reset state, an invalid one no block (R8, R257, R280). -/
def construct (c : Cfg) : Except Fault State :=
  if c.valid then .ok (State.resetWith c) else .error .configError

/-- The host appends words to the command stream, which it may do until it declares the stream closed (R82). -/
def State.feed (ws : List Word) (s : State) : State := if s.closed then s else { s with cmd := s.cmd ++ ws }

/-- The host declares the command stream closed (R102). -/
def State.close (s : State) : State := { s with closed := true }

/-- The run is over: the stream is closed and every word has been read (R102). -/
def State.finished (s : State) : Bool := s.closed && decide (s.cmdptr = s.cmd.length)

/-! ### Output ports: the projections of a trace onto one event kind (R63) -/

/-- The frame of a `TXS` event. -/
def Event.txsFrame : Event → Option Frame
  | .txs f => some f
  | .aln _ => none
  | .rxb _ => none
  | .evt _ => none
  | .rsp _ => none

/-- The frame of an `ALN` event. -/
def Event.alnFrame : Event → Option Frame
  | .aln f => some f
  | .txs _ => none
  | .rxb _ => none
  | .evt _ => none
  | .rsp _ => none

/-- The byte of an `RXB` event. -/
def Event.rxbByte : Event → Option Byte
  | .rxb b => some b
  | .txs _ => none
  | .aln _ => none
  | .evt _ => none
  | .rsp _ => none

/-- The status change of an `EVT` event. -/
def Event.evtChange : Event → Option RxEvent
  | .evt e => some e
  | .txs _ => none
  | .aln _ => none
  | .rxb _ => none
  | .rsp _ => none

/-- The word of an `RSP` event. -/
def Event.rspWord : Event → Option Word
  | .rsp w => some w
  | .txs _ => none
  | .aln _ => none
  | .rxb _ => none
  | .evt _ => none

/-- The frames sent on the `TXS` port. -/
def txsPort (t : List Event) : List Frame := t.filterMap Event.txsFrame

/-- The frames sent on the `ALN` port. -/
def alnPort (t : List Event) : List Frame := t.filterMap Event.alnFrame

/-- The bytes sent on the `RXB` port. -/
def rxbPort (t : List Event) : List Byte := t.filterMap Event.rxbByte

/-- The status changes sent on the `EVT` port. -/
def evtPort (t : List Event) : List RxEvent := t.filterMap Event.evtChange

/-- The responses sent on the `RSP` port. -/
def rspPort (t : List Event) : List Word := t.filterMap Event.rspWord

/-- The sample stream sent to the channel: the `TXS` frames one after another, sample 0 of each first (R63). -/
def sampleStream (t : List Event) : List Sample := (txsPort t).flatten

/-- The status field of a response, bits [31:28] (R96). -/
def respStat (w : Word) : BitVec 4 := w.extractLsb' 28 4

/-- The value field of a response, bits [15:0] (R96). -/
def respVal (w : Word) : Half := w.extractLsb' 0 16

end Sys2Proof.Machine
end

