-- ==== Sys2Proof/Safety.lean ====
section
/-! DEFINITION. What claims are stated in: the block's standing invariant, the well-formed trace, error-free runs, a link ready for a session. -/

namespace Sys2Proof.Machine

/-- What holds of the synchronizer at every operation boundary (R189). -/
abbrev State.AtBoundary (s : State) : Prop :=
  s.fsState = .seeking ∧ s.receiving = false ∧ s.fsBuf.length < s.cfg.frameSize

/-- A block that can run an operation: a valid configuration (R8), and the synchronizer at a boundary (R189). -/
abbrev State.Ready (s : State) : Prop := s.cfg.valid = true ∧ s.AtBoundary

/-- The invariant of a constructed block between operations: it is ready, and `CMDPTR` is inside the stream (R61). -/
abbrev State.Standing (s : State) : Prop := s.Ready ∧ s.cmdptr ≤ s.cmd.length

/-- Under `STANDARD` coding the polarity registers keep their reset value (R21, R22). -/
abbrev State.PolaritiesRest (s : State) : Prop :=
  s.cfg.variant = .standard → s.encPol = true ∧ s.decPol = true

/-- What an event of a block's trace can be: a sent frame is a row of the tone ROM (R62, R129), an aligned frame has
`FRAME_SIZE` samples (R62), a response has a defined status and zero in [27:16] (R96, R97). -/
def eventOk (c : Cfg) : Event → Prop
  | .txs f => f = toneFrame c true ∨ f = toneFrame c false
  | .aln f => f.length = c.frameSize
  | .rxb _ => True
  | .evt _ => True
  | .rsp w => (respStat w).toNat ≤ 4 ∧ w.extractLsb' 16 12 = 0#12

/-- Every event of the trace is of that kind. -/
def State.TraceOk (s : State) : Prop := ∀ e ∈ s.trace, eventOk s.cfg e

/-- The "gone wrong" mark a host derives from the trace: a response with `STAT` in 1 to 3 (R252). -/
def wentWrong (t : List Event) : Bool :=
  (rspPort t).any (fun w => decide (1 ≤ (respStat w).toNat) && decide ((respStat w).toNat ≤ 3))

/-- The data registers of R20, the registers an operation may write. -/
structure DataRegs where
  encPol    : Bit
  decPol    : Bit
  rxSr      : Byte
  rxCnt     : BitVec 3
  fsBuf     : List Sample
  fsState   : FsState
  receiving : Bool
  deriving DecidableEq, Repr

/-- The data registers of a state. -/
def State.data (s : State) : DataRegs :=
  ⟨s.encPol, s.decPol, s.rxSr, s.rxCnt, s.fsBuf, s.fsState, s.receiving⟩

/-- A sender and a receiver ready for a session (R284): the same rate, baud, tones and coding, equal polarities at
mark, no bit assembled, and the synchronizer holding nothing or one residual zero. -/
structure LinkReady (tx rx : State) : Prop where
  rate     : tx.cfg.sampleRate = rx.cfg.sampleRate
  baud     : tx.cfg.baud = rx.cfg.baud
  mark     : tx.cfg.fMark = rx.cfg.fMark
  space    : tx.cfg.fSpace = rx.cfg.fSpace
  coding   : tx.cfg.variant = rx.cfg.variant
  polarity : tx.encPol = true ∧ rx.decPol = true
  count    : rx.rxCnt = 0#3
  buffer   : rx.fsBuf = [] ∨ rx.fsBuf = [0#16]

/-- Commands performed one after another (R17, R76). -/
def execAll : List Instr → State → Result
  | [], s => .next s
  | i :: is, s =>
    match exec i s with
    | .next t => execAll is t
    | .fault f => .fault f
    | .refused r => .refused r

/-- Does a list hold two consecutive zero samples? (R67, R290) -/
def hasZeroPair : List Sample → Bool
  | [] => false
  | [_] => false
  | a :: b :: rest => (decide (a = 0#16) && decide (b = 0#16)) || hasZeroPair (b :: rest)

/-- The consecutive `n`-sample windows of a sample list, as many as are whole (R190). -/
def windows (n : Nat) (l : List Sample) : List Frame :=
  (List.range (l.length / n)).map (fun k => (l.drop (k * n)).take n)

/-- What is left of a sample list after its whole `n`-sample windows. -/
def leftover (n : Nat) (l : List Sample) : List Sample := l.drop (l.length / n * n)

/-- The symbols `NRZI` sends for logical bits from a polarity (R141): each the polarity after the bit. -/
def nrziSymbols (pol : Bit) : List Bit → List Bit
  | [] => []
  | b :: bs => (b ^^ pol) :: nrziSymbols (b ^^ pol) bs

/-- A list of bits as a number, the first the most significant (R127). -/
def bitsValue (bs : List Bit) : Nat := bs.foldl (fun a b => 2 * a + b.toNat) 0

/-- The response of a command that answers a bit (R96). -/
def bitResponse (b : Bit) : Event := .rsp (responseWord .ok (bitHalf b))

/-- One block of samples as a `SPUSH`. -/
def spushOf (xs : List Sample) : Instr := .spush (xs.map payloadWord)

/-- One block of samples as an `RXPUSH`. -/
def rxpushOf (xs : List Sample) : Instr := .rxpush (xs.map payloadWord)

/-- One frame as an `RXFRAME`. -/
def rxframeOf (f : Frame) : Instr := .rxframe (f.map payloadWord)

/-- Each block, pushed by `push` after those before it, is admitted when its turn comes (R181). -/
def AllAdmitted (push : List Sample → Instr) : List (List Sample) → State → Prop
  | [], _ => True
  | b :: bs, s => s.admits b.length = true ∧ ∀ t, exec (push b) s = .next t → AllAdmitted push bs t

/-- A window one sample late: the sample before a frame, then the frame without its last sample (R171, R190). -/
def lateWindow (x : Sample) (f : Frame) : Frame := x :: f.dropLast

end Sys2Proof.Machine
end

