-- ==== Sys2Proof/Certificates/Slice0/Obligations.lean ====
section
/-! DEFINITION. The statements for the provers, each from numbered rules of spec/. -/

open Sys2Proof Sys2Proof.Machine

/-! ### Encoding -/

/-- R90 to R94: decoding the words of a well-formed command, whatever follows them, gives back the command and what
follows. -/
def Obligations.DecodeAfterEncode : Prop :=
  ∀ (c : Cfg) (i : Instr) (rest : List Word), i.wf c = true → decode c (encode i ++ rest) = .ok (i, rest)

/-- R90 to R94: words that decode are exactly the encoding of the command they decode to, which is well-formed. -/
def Obligations.EncodeAfterDecode : Prop :=
  ∀ (c : Cfg) (ws rest : List Word) (i : Instr), decode c ws = .ok (i, rest) →
    i.wf c = true ∧ encode i ++ rest = ws

/-- R92: with its payload present, a word that matches a row of the opcode table is a command of that row's operation,
and a word that decodes matches the row of its operation. -/
def Obligations.TableRowsAreTheLegalWords : Prop :=
  ∀ (c : Cfg) (w : Word) (rest : List Word), paylen c w ≤ rest.length →
    (∀ row ∈ opcodeTable, row.hits w = true →
      ∃ i, decode c (w :: rest) = .ok (i, rest.drop (paylen c w)) ∧ i.op = row.op) ∧
    (∀ i r, decode c (w :: rest) = .ok (i, r) → ∃ row ∈ opcodeTable, row.op = i.op ∧ row.hits w = true)

/-- Words written out from R90 to R93 decode to the commands they stand for, one per family. -/
def Obligations.WrittenWordsDecode : Prop :=
  decode Cfg.default [0x01000001#32] = .ok (.synth true, []) ∧
  decode Cfg.default [0x02000000#32, 0x02000001#32] = .ok (.lenc false, [0x02000001#32]) ∧
  decode Cfg.default [0x040000A5#32] = .ok (.txbyte 0xA5#8, []) ∧
  decode Cfg.default (0x0A000000#32 :: List.replicate 20 5#32) = .ok (.rxframe (List.replicate 20 5#32), []) ∧
  decode Cfg.default [0x0C000002#32, 0x00010005#32, 6#32] = .ok (.spush [0x00010005#32, 6#32], []) ∧
  decode Cfg.default [0x1000000B#32] = .ok (.henc 11#4, []) ∧
  decode Cfg.default [0x20000008#32] = .ok (.rdreg 8#8, []) ∧
  decode Cfg.default [0x00000000#32] = .error (.illegalOpcode 0#8) ∧
  decode Cfg.default [0x03010001#32] = .error (.illegalField 0) ∧
  decode Cfg.default [0x08000000#32, 0#32] = .error .incomplete

/-! ### The step -/

/-- R100: when the words at `CMDPTR` are those of a well-formed command, the step is that command's meaning. The
meaning itself moves `CMDPTR` past the words. -/
def Obligations.StepRunsDecodedCommand : Prop :=
  ∀ (s : State) (i : Instr) (rest : List Word), s.cfg.valid = true → i.wf s.cfg = true →
    s.cmd.drop s.cmdptr = encode i ++ rest → step s = exec i s

/-- R102: waiting changes nothing. That the model's step answers the same state, where words are missing and the
stream is open or where no word is left, is the model's form of waiting (notes/assumptions/3.md). -/
def Obligations.WaitingChangesNothing : Prop :=
  ∀ (s : State), s.cfg.valid = true →
    (s.cmd.length ≤ s.cmdptr → step s = .next s) ∧
    (∀ w rest, s.cmd.drop s.cmdptr = w :: rest → rest.length < paylen s.cfg w → s.closed = false → step s = .next s)

/-- R102: a command cut off by the end of a closed stream never executes: the run is stuck. That this is a fault is the
model's form of it (notes/assumptions/4.md). -/
def Obligations.ClosedInsideCommandIsStuck : Prop :=
  ∀ (s : State) (w : Word) (rest : List Word), s.cfg.valid = true → s.closed = true →
    s.cmd.drop s.cmdptr = w :: rest → rest.length < paylen s.cfg w → step s = .fault .incompleteCommand

/-- R253, R251: a reserved operation code is answered `ILLEGAL_OPCODE` with the code, owns no payload, and changes
nothing else. -/
def Obligations.ReservedOpcodeAnswered : Prop :=
  ∀ (s : State) (w : Word) (rest : List Word), s.cfg.valid = true → s.cmd.drop s.cmdptr = w :: rest →
    opc w ∉ [0x01#8, 0x02#8, 0x03#8, 0x04#8, 0x08#8, 0x09#8, 0x0A#8, 0x0C#8, 0x0D#8, 0x10#8, 0x11#8, 0x20#8, 0x3F#8] →
    step s = .next { s with
      trace := s.trace ++ [.rsp (0x10000000#32 ||| (opc w).setWidth 32)]
      cmdptr := s.cmdptr + 1 }

/-- R93, R254, R260: a nonzero `RSV` or must-be-0 bit of `IMM` is answered `ILLEGAL_FIELD` with `VAL` 0, whatever the
payload and the length are; the payload is consumed and nothing else changes. -/
def Obligations.HeaderFieldErrorAnswered : Prop :=
  ∀ (s : State) (w : Word) (rest : List Word) (op : Op), s.cfg.valid = true → s.cmd.drop s.cmdptr = w :: rest →
    paylen s.cfg w ≤ rest.length → opc w = op.code → rsv w ≠ 0#8 ∨ imm w &&& op.immZero ≠ 0#16 →
    step s = .next { s with
      trace := s.trace ++ [.rsp 0x20000000#32]
      cmdptr := s.cmdptr + (1 + paylen s.cfg w) }

/-- R82, R102, R252: on a valid configuration and an open stream a step always answers a next state: no word, operand
or sample stops the block. -/
def Obligations.OpenStreamNeverStops : Prop :=
  ∀ s : State, s.cfg.valid = true → s.closed = false → ∃ t, step s = .next t

/-- R28, R94: once its payload is present, a command, legal or not, leaves `CMDPTR` one past its payload. -/
def Obligations.PointerPassesWholeCommand : Prop :=
  ∀ (s t : State) (w : Word) (rest : List Word), s.cmd.drop s.cmdptr = w :: rest → paylen s.cfg w ≤ rest.length →
    step s = .next t → t.cmdptr = s.cmdptr + 1 + paylen s.cfg w

/-- R61, R82: what a block does with a command does not depend on the words the host appends after it, and those words
are still there afterwards. -/
def Obligations.LaterWordsChangeNothing : Prop :=
  ∀ (s t : State) (w : Word) (rest ws : List Word), s.cmd.drop s.cmdptr = w :: rest → paylen s.cfg w ≤ rest.length →
    step s = .next t → step (s.feed ws) = .next (t.feed ws)

/-- R98, R99: every well-formed command whose payload words have no reserved bit set is a line of the assembler,
`TXMSG` is one `TXBYTE` word for each byte, and `SPUSHZ L` and `RXPUSHZ L` are the command word with `L` and then `L` zero
samples. -/
def Obligations.CleanCommandsAssemble : Prop :=
  (∀ (c : Cfg) (i : Instr), i.wf c = true → payloadClean i.payload = true → i.payload.length ≤ 65535 →
    ∃ line, assemble [] [line] = some (encode i)) ∧
  (∀ bytes : List Byte, assemble [] [.txmsg bytes] = some (bytes.map (fun b => 0x04000000#32 ||| b.setWidth 32))) ∧
  (∀ len : Nat, len ≤ 65535 →
    assemble [] [.spushz len] = some ((0x0C000000#32 ||| BitVec.ofNat 32 len) :: List.replicate len 0x00000000#32) ∧
    assemble [] [.rxpushz len] = some ((0x0D000000#32 ||| BitVec.ofNat 32 len) :: List.replicate len 0x00000000#32))

/-! ### Construction and reset -/

/-- R8, R9, R257, R280: `Cfg.valid` is the rules' conditions; construction gives the reset state exactly on a valid
configuration; a state with an invalid one executes nothing; 1800 baud at 48000 samples per second is invalid and the
other five selectable bauds are valid. -/
def Obligations.OnlyValidConfigurationsRun : Prop :=
  (∀ c : Cfg, c.valid = true ↔
    1 ≤ c.sampleRate ∧ 1 ≤ c.baud ∧ c.baud ∣ c.sampleRate ∧ 1 ≤ c.amp ∧ c.amp ≤ 32767 ∧ 1 ≤ c.fMark ∧ 1 ≤ c.fSpace ∧
      2 ≤ c.sampleRate / c.baud ∧ c.sampleRate / c.baud ≤ 32767) ∧
  (∀ c : Cfg, construct c = if c.valid then .ok (State.resetWith c) else .error .configError) ∧
  (∀ s : State, s.cfg.valid = false → step s = .fault .configError) ∧
  (∀ b ∈ [30, 300, 600, 1200, 2400], (({ Cfg.default with baud := b } : Cfg).valid) = true) ∧
  ({ Cfg.default with baud := 1800 } : Cfg).valid = false

/-- R50, R280: the value of every register, the pointer and the trace after hardware reset, for every configuration.
That the stream is then open and without words is the model's (notes/assumptions/3.md), and so is the configuration
`State.reset` is built with (notes/assumptions/2.md). -/
def Obligations.ResetValues : Prop :=
  ∀ c : Cfg,
    (State.resetWith c).cfg = c ∧
    (State.resetWith c).encPol = true ∧ (State.resetWith c).decPol = true ∧
    (State.resetWith c).rxSr = 0#8 ∧ (State.resetWith c).rxCnt = 0#3 ∧
    (State.resetWith c).fsBuf = [] ∧ (State.resetWith c).fsState = .seeking ∧
    (State.resetWith c).receiving = false ∧ (State.resetWith c).rxInactive = true ∧
    (State.resetWith c).cmdptr = 0 ∧ (State.resetWith c).trace = [] ∧
    (State.resetWith c).cmd = [] ∧ (State.resetWith c).closed = false ∧
    State.reset = State.resetWith Cfg.default

/-! ### Invariants of every step -/

/-- R8, R61, R189: the standing invariant holds of every constructed block, and so do the resting polarities and the
well-formed trace. -/
def Obligations.ResetStands : Prop :=
  ∀ c : Cfg, c.valid = true →
    (State.resetWith c).Standing ∧ (State.resetWith c).PolaritiesRest ∧ (State.resetWith c).TraceOk

/-- R189, with R8 and R61: every step keeps the standing invariant. -/
def Obligations.StandingKept : Prop :=
  ∀ s t : State, s.Standing → step s = .next t → t.Standing

/-- R21, R22: under `STANDARD` coding no step moves the polarity registers from their reset value. -/
def Obligations.StandardPolaritiesRest : Prop :=
  ∀ s t : State, s.PolaritiesRest → step s = .next t → t.PolaritiesRest

/-- R62, R96, R97, R129: every step keeps the trace well-formed: sent frames are rows of the tone ROM, aligned frames
have `FRAME_SIZE` samples, responses have a defined status and zero reserved bits. -/
def Obligations.TraceStaysWellFormed : Prop :=
  ∀ s t : State, s.TraceOk → step s = .next t → t.TraceOk

/-- R7, R61, R62: no step changes the configuration or the command stream, or removes or alters an event of the trace. -/
def Obligations.TraceOnlyGrows : Prop :=
  ∀ s t : State, step s = .next t →
    t.cfg = s.cfg ∧ t.cmd = s.cmd ∧ t.closed = s.closed ∧ ∃ evs, t.trace = s.trace ++ evs

/-- R62: every command answers a next state, with exactly one response, which is its last event. -/
def Obligations.OneResponsePerCommand : Prop :=
  ∀ (i : Instr) (s : State), s.cfg.valid = true →
    ∃ (t : State) (evs : List Event) (w : Word), exec i s = .next t ∧ t.trace = s.trace ++ evs ++ [.rsp w] ∧ rspPort evs = [] ∧
      t.cmdptr = s.cmdptr + i.length

/-- R252: when a command's response carries an error, no data register has been written and the response is the only
event. -/
def Obligations.ErrorsChangeNothing : Prop :=
  ∀ (i : Instr) (s t : State) (evs : List Event) (w : Word), s.cfg.valid = true → exec i s = .next t →
    t.trace = s.trace ++ evs ++ [.rsp w] → respStat w ≠ 0#4 → evs = [] ∧ t.data = s.data

/-- R96, R97: the layout of a response word, and the status codes, of which there are no others. -/
def Obligations.ResponseWordLayout : Prop :=
  (∀ (st : Stat) (v : Half), respStat (responseWord st v) = st.code ∧
    (responseWord st v).extractLsb' 16 12 = 0#12 ∧ respVal (responseWord st v) = v) ∧
  Stat.code .ok = 0#4 ∧ Stat.code .illegalOpcode = 1#4 ∧ Stat.code .illegalField = 2#4 ∧
    Stat.code .badLength = 3#4 ∧ Stat.code .uncorrectable = 4#4 ∧ ∀ st : Stat, st.code.toNat ≤ 4

/-- R20 to R27: the registers each operation may write; every other data register is unchanged. -/
def Obligations.OperationsWriteOnlyTheirRegisters : Prop :=
  ∀ (s t : State), s.Ready →
    (∀ i, (∃ y, i = .synth y) ∨ (∃ p, i = .detect p) ∨ (∃ n, i = .henc n) ∨ (∃ c, i = .hdec c) ∨ (∃ x, i = .rdreg x) →
      exec i s = .next t → t.data = s.data) ∧
    (∀ i, (∃ b, i = .lenc b) ∨ (∃ b, i = .txbit b) ∨ (∃ v, i = .txbyte v) → exec i s = .next t →
      t.data = { s.data with encPol := t.encPol }) ∧
    (∀ p, exec (.ldec p) s = .next t → t.data = { s.data with decPol := t.decPol }) ∧
    (∀ p, exec (.rxframe p) s = .next t →
      t.data = { s.data with decPol := t.decPol, rxSr := t.rxSr, rxCnt := t.rxCnt }) ∧
    (∀ p, exec (.spush p) s = .next t → t.data = { s.data with fsBuf := t.fsBuf }) ∧
    (∀ p, exec (.rxpush p) s = .next t →
      t.data = { s.data with decPol := t.decPol, rxSr := t.rxSr, rxCnt := t.rxCnt, fsBuf := t.fsBuf })

/-- R17: a transmit-side and a receive-side command commute: in either order they leave the same registers and the
same `TXS`, `ALN`, `RXB` and `EVT` events, and give the same two responses, in the order of the commands. -/
def Obligations.TransmitAndReceiveCommute : Prop :=
  ∀ (s : State) (i j : Instr), s.cfg.valid = true →
    (∃ y, i = .synth y) ∨ (∃ b, i = .lenc b) ∨ (∃ b, i = .txbit b) ∨ (∃ v, i = .txbyte v) →
    (∃ p, j = .ldec p) ∨ (∃ p, j = .detect p) ∨ (∃ p, j = .rxframe p) ∨ (∃ p, j = .spush p) ∨ (∃ p, j = .rxpush p) →
    ∃ (a b : State) (wi wj : Word), execAll [i, j] s = .next a ∧ execAll [j, i] s = .next b ∧
      a.data = b.data ∧ a.cmdptr = b.cmdptr ∧
      txsPort a.trace = txsPort b.trace ∧ alnPort a.trace = alnPort b.trace ∧
      rxbPort a.trace = rxbPort b.trace ∧ evtPort a.trace = evtPort b.trace ∧
      rspPort a.trace = rspPort s.trace ++ [wi, wj] ∧ rspPort b.trace = rspPort s.trace ++ [wj, wi]

/-! ### Tone synthesizer and transmit path -/

/-- `rnd(x) = sign(x) * floor(abs(x) + 1/2)` (R121). -/
noncomputable def Sys2Proof.Machine.rnd (x : ℝ) : ℤ := SignType.sign x * ⌊|x| + 1 / 2⌋

/-- R120, R121: for every valid configuration the model's tone ROM is the real cosine of the rules, rounded to the
nearest integer, halves away from zero. -/
def Obligations.ToneRomIsRoundedCosine : Prop :=
  ∀ (c : Cfg) (s : Bit) (n : Nat), c.valid = true →
    (tone c s n).toInt = rnd (c.amp * Real.cos (2 * Real.pi * c.toneFreq s * n / c.sampleRate))

/-- R122 (a) to (c): the first sample is `AMP`, every sample lies in `-AMP` to `AMP`, and a sample depends on its index
only through the phase. -/
def Obligations.ToneRomProperties : Prop :=
  ∀ (c : Cfg) (s : Bit), c.valid = true →
    (toneFrame c s).length = c.frameSize ∧
    ((toneFrame c s).map BitVec.toInt).head? = some (c.amp : Int) ∧
    (∀ x ∈ toneFrame c s, -(c.amp : Int) ≤ x.toInt ∧ x.toInt ≤ c.amp) ∧
    (∀ n m, (c.toneFreq s * n) % c.sampleRate = (c.toneFreq s * m) % c.sampleRate → tone c s n = tone c s m)

/-- The table of R123: each `AMP` with the first quarter of its `C40`. -/
def Sys2Proof.Machine.quarters40 : List (Nat × List Int) :=
  [(32767, [32767, 32364, 31163, 29196, 26509, 23170, 19260, 14876, 10126, 5126, 0]),
    (16384, [16384, 16182, 15582, 14598, 13255, 11585, 9630, 7438, 5063, 2563, 0]),
    (1000, [1000, 988, 951, 891, 809, 707, 588, 454, 309, 156, 0]),
    (4, [4, 4, 4, 4, 3, 3, 2, 2, 1, 1, 0]),
    (3, [3, 3, 3, 3, 2, 2, 2, 1, 1, 0, 0]),
    (2, [2, 2, 2, 2, 2, 1, 1, 1, 1, 0, 0]),
    (1, [1, 1, 1, 1, 1, 1, 1, 0, 0, 0, 0])]

/-- `C40[k]` from its first quarter, by the symmetries of R123. -/
def Sys2Proof.Machine.c40 (quarter : List Int) (k : Nat) : Int :=
  if k ≤ 10 then quarter.getD k 0
  else if k ≤ 20 then -(quarter.getD (20 - k) 0)
  else if k ≤ 30 then -(quarter.getD (k - 20) 0)
  else quarter.getD (40 - k) 0

/-- R123: the contents of the tone ROM at the default tones and 48000 samples per second, for every `AMP` of its
table. -/
def Obligations.ToneContentsAtDefaultTones : Prop :=
  ∀ (c : Cfg) (n : Nat), c.sampleRate = 48000 → c.fMark = 1200 → c.fSpace = 2400 →
    ∀ row ∈ quarters40, c.amp = row.1 →
      (tone c true n).toInt = c40 row.2 (n % 40) ∧ (tone c false n).toInt = c40 row.2 (2 * n % 40)

/-- R291: at the default tones and 48000 samples per second, when `AMP` is at least 4 no tone frame, nor any sequence of
tone frames one after another, holds two consecutive zeros; the mark frame does when `AMP` is at most 3 (frames of at
least 11 samples, which reach the zeros at 9 and 10), and the space frame when `AMP` is 1 (frames of at least 6, which
reach those at 4 and 5). -/
def Obligations.ZeroPairsInTones : Prop :=
  ∀ c : Cfg, c.valid = true → c.sampleRate = 48000 → c.fMark = 1200 → c.fSpace = 2400 →
    (4 ≤ c.amp → (∀ y, hasZeroPair (toneFrame c y) = false) ∧
      ∀ symbols : List Bit, hasZeroPair (symbols.flatMap (toneFrame c)) = false) ∧
    (c.amp ≤ 3 → 11 ≤ c.frameSize → hasZeroPair (toneFrame c true) = true) ∧
    (c.amp = 1 → 6 ≤ c.frameSize → hasZeroPair (toneFrame c false) = true)

/-- R124: `SYNTH` sends the symbol's frame, `TONE[s][0]` to `TONE[s][FRAME_SIZE - 1]`, responds 1 and writes no register. -/
def Obligations.SynthSendsFrame : Prop :=
  ∀ (y : Bit) (s : State), exec (.synth y) s = .next { s with
    trace := s.trace ++ [.txs ((List.range s.cfg.frameSize).map (tone s.cfg y)), .rsp 0x00000001#32]
    cmdptr := s.cmdptr + 1 }

/-- R126, R141: `TXBIT` sends the encoder's symbol and responds it. -/
def Obligations.TxbitSendsSymbol : Prop :=
  ∀ (b : Bit) (s : State),
    (s.cfg.variant = .standard → exec (.txbit b) s = .next { s with
      trace := s.trace ++ [.txs (toneFrame s.cfg b), bitResponse b]
      cmdptr := s.cmdptr + 1 }) ∧
    (s.cfg.variant = .nrzi → exec (.txbit b) s = .next { s with
      encPol := b ^^ s.encPol
      trace := s.trace ++ [.txs (toneFrame s.cfg (b ^^ s.encPol)), bitResponse (b ^^ s.encPol)]
      cmdptr := s.cmdptr + 1 })

/-- R127 under `STANDARD`: eight frames, most significant bit first, and the response is the byte. -/
def Obligations.TxbyteStandard : Prop :=
  ∀ (v : Byte) (s : State), s.cfg.variant = .standard → exec (.txbyte v) s = .next { s with
    trace := s.trace ++ (List.range 8).map (fun k => .txs (toneFrame s.cfg (v.getLsbD (7 - k)))) ++
      [.rsp (responseWord .ok (v.setWidth 16))]
    cmdptr := s.cmdptr + 1 }

/-- R127 under `NRZI`: the frames and the response are the symbols of the bits, and `ENC_POL` ends flipped exactly when
the byte has an odd number of 1 bits. -/
def Obligations.TxbyteNrzi : Prop :=
  ∀ (v : Byte) (s : State), s.cfg.variant = .nrzi → exec (.txbyte v) s = .next { s with
    encPol := s.encPol ^^ decide (weight v % 2 = 1)
    trace := s.trace ++ (nrziSymbols s.encPol (iterSymbols v)).map (fun y => .txs (toneFrame s.cfg y)) ++
      [.rsp (responseWord .ok (BitVec.ofNat 16 (bitsValue (nrziSymbols s.encPol (iterSymbols v)))))]
    cmdptr := s.cmdptr + 1 }

/-- R127: `TXBYTE B` is exactly `TXBIT B[7]` to `TXBIT B[0]`, but for its one response instead of eight; it sends
`8 * FRAME_SIZE` samples. -/
def Obligations.TxbyteIsEightTxbits : Prop :=
  ∀ (v : Byte) (s : State), ∃ t u : State, exec (.txbyte v) s = .next t ∧
    execAll ((List.range 8).map (fun k => .txbit (v.getLsbD (7 - k)))) s = .next u ∧
    t.data = u.data ∧ txsPort t.trace = txsPort u.trace ∧
    (rspPort t.trace).length = (rspPort s.trace).length + 1 ∧
    (rspPort u.trace).length = (rspPort s.trace).length + 8 ∧
    (sampleStream t.trace).length = (sampleStream s.trace).length + 8 * s.cfg.frameSize

/-! ### Line coder -/

/-- R141, R143: `LENC` responds the encoder's symbol, writes `ENC_POL` only under `NRZI`, and sends nothing. -/
def Obligations.LencSteps : Prop :=
  ∀ (b : Bit) (s : State),
    (s.cfg.variant = .standard → exec (.lenc b) s = .next { s with
      trace := s.trace ++ [bitResponse b]
      cmdptr := s.cmdptr + 1 }) ∧
    (s.cfg.variant = .nrzi → exec (.lenc b) s = .next { s with
      encPol := if b then !s.encPol else s.encPol
      trace := s.trace ++ [bitResponse (if b then !s.encPol else s.encPol)]
      cmdptr := s.cmdptr + 1 })

/-- R142, R144: `LDEC` responds the decoder's bit and writes `DEC_POL` only under `NRZI`. -/
def Obligations.LdecSteps : Prop :=
  ∀ (p : Bit) (s : State),
    (s.cfg.variant = .standard → exec (.ldec p) s = .next { s with
      trace := s.trace ++ [bitResponse p]
      cmdptr := s.cmdptr + 1 }) ∧
    (s.cfg.variant = .nrzi → exec (.ldec p) s = .next { s with
      decPol := p
      trace := s.trace ++ [bitResponse (decide (p ≠ s.decPol))]
      cmdptr := s.cmdptr + 1 })

/-- R145: a decoder that starts at the encoder's polarity and is given the encoder's symbols returns the encoded bits,
and ends at the encoder's polarity. -/
def Obligations.LineCodingInverts : Prop :=
  ∀ (bits : List Bit) (tx rx : State), tx.cfg.variant = rx.cfg.variant → tx.encPol = rx.decPol →
    ∃ (t u : State) (syms : List Bit), execAll (bits.map .lenc) tx = .next t ∧ t.trace = tx.trace ++ syms.map bitResponse ∧
      syms.length = bits.length ∧
      execAll (syms.map .ldec) rx = .next u ∧ u.trace = rx.trace ++ bits.map bitResponse ∧
      u.decPol = t.encPol

/-- R146 (a), (b), under `NRZI`: a polarity mismatch inverts the first decoded bit and no other; one symbol detected
wrongly inverts its bit and the next and no other. -/
def Obligations.NrziErrorsStayLocal : Prop :=
  (∀ (b : Bit) (bits : List Bit) (tx rx : State), tx.cfg.variant = .nrzi → rx.cfg.variant = .nrzi →
    tx.encPol = (!rx.decPol) →
    ∃ u : State, execAll ((nrziSymbols tx.encPol (b :: bits)).map .ldec) rx = .next u ∧
      u.trace = rx.trace ++ ((!b) :: bits).map bitResponse) ∧
  (∀ (front : List Bit) (y z : Bit) (back : List Bit) (rx : State), rx.cfg.variant = .nrzi →
    ∃ (u v : State) (bits : List Bit) (a b : Bit) (more : List Bit), execAll ((front ++ y :: z :: back).map .ldec) rx = .next u ∧
      execAll ((front ++ (!y) :: z :: back).map .ldec) rx = .next v ∧ bits.length = front.length ∧
      u.trace = rx.trace ++ (bits ++ a :: b :: more).map bitResponse ∧
      v.trace = rx.trace ++ (bits ++ (!a) :: (!b) :: more).map bitResponse)

/-! ### Bit detector and byte assembler -/

/-- R162, R163, R164: `DETECT` responds the symbol whose reference is nearer in the sum of absolute differences over
the integers, `TIE_BIT` on a tie, and writes no register. -/
def Obligations.DetectNamesNearer : Prop :=
  ∀ (pay : List Word) (s : State), payloadClean pay = true → pay.length = s.cfg.frameSize →
    let d := fun y => ((List.range s.cfg.frameSize).map
      (fun n => ((samples pay).getD n 0#16).toInt - (tone s.cfg y n).toInt)).map Int.natAbs
    exec (.detect pay) s = .next { s with
      trace := s.trace ++ [bitResponse
        (if (d true).sum < (d false).sum then true else if (d false).sum < (d true).sum then false else s.cfg.tieBit)]
      cmdptr := s.cmdptr + (1 + pay.length) }

/-- R161: the distance of a frame is at most `65535 * FRAME_SIZE`, below `2 ^ 31`. -/
def Obligations.DistanceFitsAccumulator : Prop :=
  ∀ (c : Cfg) (x : Frame) (y : Bit), c.valid = true → toneDist c x y ≤ 65535 * c.frameSize ∧ toneDist c x y < 2 ^ 31

/-- R172: the parity of the difference of a frame's two distances does not depend on the frame. -/
def Obligations.TieParityLaw : Prop :=
  ∀ (c : Cfg) (x : Frame), x.length = c.frameSize →
    ((toneDist c x true : Int) - (toneDist c x false : Int)) % 2 =
      (((toneFrame c true).map BitVec.toInt).sum + ((toneFrame c false).map BitVec.toInt).sum) % 2

/-- R163, R164: a clean tone frame is detected as its symbol when the two references differ, and when they are the same
every frame is decided by `TIE_BIT`. -/
def Obligations.CleanFramesAndTies : Prop :=
  ∀ c : Cfg,
    (toneFrame c true ≠ toneFrame c false → ∀ y, detect c (toneFrame c y) = y) ∧
    (c.fMark = c.fSpace → ∀ x, detect c x = c.tieBit)

/-- R165, R166: `RXFRAME` decodes the detected bit by the line code and shifts it into `RX_SR`; the eighth emits `RXB` and
sets bit 8 of the response. -/
def Obligations.RxframeAssembles : Prop :=
  ∀ (pay : List Word) (s : State), payloadClean pay = true →
    let p := detect s.cfg (samples pay)
    let b := if s.cfg.variant = .standard then p else decide (p ≠ s.decPol)
    let pol := if s.cfg.variant = .standard then s.decPol else p
    let sr : Byte := BitVec.ofNat 8 (2 * s.rxSr.toNat + b.toNat)
    (s.rxCnt = 7#3 → exec (.rxframe pay) s = .next { s with
      decPol := pol, rxSr := sr, rxCnt := 0#3
      trace := s.trace ++ [.rxb sr, .rsp (responseWord .ok (0x100#16 ||| bitHalf b))]
      cmdptr := s.cmdptr + (1 + pay.length) }) ∧
    (s.rxCnt ≠ 7#3 → exec (.rxframe pay) s = .next { s with
      decPol := pol, rxSr := sr, rxCnt := s.rxCnt + 1#3
      trace := s.trace ++ [.rsp (responseWord .ok (bitHalf b))]
      cmdptr := s.cmdptr + (1 + pay.length) })

/-- R254: a payload word of a frame operation with a reserved bit set is answered `ILLEGAL_FIELD` with `VAL` 1; no
register changes and the payload is consumed. -/
def Obligations.FramePayloadErrorAnswered : Prop :=
  ∀ (pay : List Word) (s : State), (∃ w ∈ pay, prsv w ≠ 0#16) →
    ∀ i, i = .detect pay ∨ i = .rxframe pay → exec i s = .next { s with
      trace := s.trace ++ [.rsp 0x20000001#32]
      cmdptr := s.cmdptr + (1 + pay.length) }

/-! ### Frame synchronizer -/

/-- R183, R190: the strip reduces a run of leading zeros to one, and touches nothing else. -/
def Obligations.StripLeavesOneZero : Prop :=
  ∀ (k : Nat) (l : List Sample), l.head? ≠ some 0#16 →
    stripZeros (List.replicate k 0#16 ++ l) = if k = 0 then l else 0#16 :: l

/-- R182 to R187: what an admitted `SPUSH` leaves and emits, by how much is buffered after the strip. -/
def Obligations.SpushAligns : Prop :=
  ∀ (pay : List Word) (s : State), s.Ready → 1 ≤ pay.length → s.fsBuf.length + pay.length ≤ s.cfg.bufCap →
    payloadClean pay = true →
    let v := stripZeros (s.fsBuf ++ samples pay)
    let n := s.cfg.frameSize
    (v.length < n → exec (.spush pay) s = .next { s with
      fsBuf := v
      trace := s.trace ++ [.rsp 0x00000000#32]
      cmdptr := s.cmdptr + (1 + pay.length) }) ∧
    (n ≤ v.length → v.length < 2 * n → exec (.spush pay) s = .next { s with
      fsBuf := v.drop n
      trace := s.trace ++ [.evt .active, .aln (v.take n), .evt .inactive, .rsp 0x00000001#32]
      cmdptr := s.cmdptr + (1 + pay.length) }) ∧
    (v.length = 2 * n → exec (.spush pay) s = .next { s with
      fsBuf := []
      trace := s.trace ++ [.evt .active, .aln (v.take n), .aln (v.drop n), .evt .inactive, .rsp 0x00000002#32]
      cmdptr := s.cmdptr + (1 + pay.length) })

/-- R188, R186: an admitted `RXPUSH` completes in the state that `SPUSH` of the block followed by one `RXFRAME` for each frame it
emits leaves, but for the trace and the pointer: its trace is `EVT(ACTIVE)`, the bytes those frames complete and
`EVT(INACTIVE)`, in that order, or no event where there is no frame, and then the response, which counts the frames
and the bytes. No `ALN` is emitted. -/
def Obligations.RxpushIsSpushThenRxframes : Prop :=
  ∀ (pay : List Word) (s : State), s.Ready → 1 ≤ pay.length → s.fsBuf.length + pay.length ≤ s.cfg.bufCap →
    payloadClean pay = true →
    ∃ (m u : State) (frames : List Frame) (bytes : List Byte),
      exec (.spush pay) s = .next m ∧ alnPort m.trace = alnPort s.trace ++ frames ∧
      execAll (frames.map rxframeOf) m = .next u ∧ rxbPort u.trace = rxbPort s.trace ++ bytes ∧
      evtPort u.trace = evtPort s.trace ++ (if frames = [] then [] else [.active, .inactive]) ∧
      exec (.rxpush pay) s = .next { u with
        trace := s.trace ++ (if frames = [] then [] else [.evt .active] ++ bytes.map .rxb ++ [.evt .inactive]) ++
          [.rsp (responseWord .ok (BitVec.ofNat 16 (256 * bytes.length + frames.length)))]
        cmdptr := s.cmdptr + (1 + pay.length) }

/-- R181: a block is admitted exactly when it has a sample and fits the buffer. Otherwise it is answered
`BAD_LENGTH` with the buffer's length, whatever its payload holds, and changes nothing. At a boundary every block of 1
to `FRAME_SIZE + 1` samples is admitted. -/
def Obligations.AdmissionOfBlocks : Prop :=
  ∀ (pay : List Word) (s : State) (i : Instr), s.cfg.valid = true → i = .spush pay ∨ i = .rxpush pay →
    (1 ≤ pay.length ∧ s.fsBuf.length + pay.length ≤ s.cfg.bufCap → payloadClean pay = true →
      ∃ (t : State) (evs : List Event) (v : Half), exec i s = .next t ∧
        t.trace = s.trace ++ evs ++ [.rsp (responseWord .ok v)]) ∧
    (¬(1 ≤ pay.length ∧ s.fsBuf.length + pay.length ≤ s.cfg.bufCap) → exec i s = .next { s with
      trace := s.trace ++ [.rsp (responseWord .badLength (BitVec.ofNat 16 s.fsBuf.length))]
      cmdptr := s.cmdptr + (1 + pay.length) }) ∧
    (s.AtBoundary → 1 ≤ pay.length → pay.length ≤ s.cfg.frameSize + 1 →
      s.fsBuf.length + pay.length ≤ s.cfg.bufCap)

/-- R251, R254: a bad payload word of an admitted block is answered `ILLEGAL_FIELD` with `VAL` 1 and leaves every
register. -/
def Obligations.BlockPayloadErrorAnswered : Prop :=
  ∀ (pay : List Word) (s : State) (i : Instr), i = .spush pay ∨ i = .rxpush pay →
    1 ≤ pay.length → s.fsBuf.length + pay.length ≤ s.cfg.bufCap → (∃ w ∈ pay, prsv w ≠ 0#16) →
    exec i s = .next { s with
      trace := s.trace ++ [.rsp 0x20000001#32]
      cmdptr := s.cmdptr + (1 + pay.length) }

/-- R190, R181: from an empty buffer or one residual zero, admitted blocks that carry `k` zeros and then a signal that
starts with no zero and has no two consecutive ones yield the consecutive frames of the signal, one sample late exactly
if there was a zero, however the stream is cut into blocks and however many zeros there were. Blocks of 1 to
`FRAME_SIZE + 1` samples are always admitted. -/
def Obligations.LeadingSilenceAlignment : Prop :=
  (∀ (s : State) (blocks : List (List Sample)) (j k : Nat) (signal : List Sample), s.Ready → j ≤ 1 →
    s.fsBuf = List.replicate j 0#16 → AllAdmitted spushOf blocks s →
    blocks.flatten = List.replicate k 0#16 ++ signal → signal.head? ≠ some 0#16 → hasZeroPair signal = false →
    let stream := if j + k = 0 then signal else 0#16 :: signal
    ∃ t : State, execAll (blocks.map spushOf) s = .next t ∧
      alnPort t.trace = alnPort s.trace ++ windows s.cfg.frameSize stream ∧
      t.fsBuf = leftover s.cfg.frameSize stream) ∧
  (∀ (s : State) (blocks : List (List Sample)), s.Ready →
    (∀ b ∈ blocks, 1 ≤ b.length ∧ b.length ≤ s.cfg.frameSize + 1) →
    AllAdmitted spushOf blocks s ∧ AllAdmitted rxpushOf blocks s)

/-- R191: when a burst that came one sample late has left its last sample in the buffer, the silence that follows, in
blocks of at most `FRAME_SIZE` zeros, yields exactly one more frame, that sample and zeros, once `FRAME_SIZE - 1`
zeros have arrived. -/
def Obligations.SilenceAfterLateBurst : Prop :=
  ∀ (s : State) (x : Sample) (blocks : List (List Sample)), s.Ready → s.fsBuf = [x] → x ≠ 0#16 →
    (∀ b ∈ blocks, 1 ≤ b.length ∧ b.length ≤ s.cfg.frameSize ∧ ∀ y ∈ b, y = 0#16) →
    ∃ t : State, execAll (blocks.map spushOf) s = .next t ∧
      alnPort t.trace = alnPort s.trace ++
        if s.cfg.frameSize - 1 ≤ blocks.flatten.length then [x :: List.replicate (s.cfg.frameSize - 1) 0#16] else []

/-- V4, from R127, R145, R165, R188: on a ready link without leading silence, where the receiver detects the
sender's clean frames, the frames of a message pushed one by one give back exactly its bytes. -/
def Obligations.ModulationRoundTrip : Prop :=
  ∀ (tx rx : State) (bytes : List Byte), tx.cfg.valid = true → rx.Ready → LinkReady tx rx → rx.fsBuf = [] →
    (∀ y, detect rx.cfg (toneFrame tx.cfg y) = y) →
    ∃ (t u : State) (frames : List Frame), execAll (expandTxmsg bytes) tx = .next t ∧ txsPort t.trace = txsPort tx.trace ++ frames ∧
      execAll (frames.map rxpushOf) rx = .next u ∧
      rxbPort u.trace = rxbPort rx.trace ++ bytes ∧ u.rxCnt = 0#3 ∧ u.fsBuf = [] ∧ u.decPol = t.encPol

/-- V4 with leading silence, from R127, R145, R165, R188, R190: on a ready link where the receiver detects the
sender's frames one sample late (R171) and the sender's signal has no two consecutive zeros, any zeros, at least one
with what the buffer holds, and then the frames of a message, in any admitted blocks, give back exactly its bytes. The last sample stays
buffered. -/
def Obligations.LateModulationRoundTrip : Prop :=
  ∀ (tx rx : State) (bytes : List Byte), tx.cfg.valid = true → rx.Ready → LinkReady tx rx →
    (∀ symbols : List Bit, hasZeroPair (symbols.flatMap (toneFrame tx.cfg)) = false) →
    (∀ (x : Sample) (y : Bit), x = 0#16 ∨ (∃ z, x = tone tx.cfg z (tx.cfg.frameSize - 1)) →
      detect rx.cfg (lateWindow x (toneFrame tx.cfg y)) = y) →
    ∃ (t : State) (frames : List Frame), execAll (expandTxmsg bytes) tx = .next t ∧
      txsPort t.trace = txsPort tx.trace ++ frames ∧
      ∀ (k : Nat) (blocks : List (List Sample)), 1 ≤ rx.fsBuf.length + k → AllAdmitted rxpushOf blocks rx →
        blocks.flatten = List.replicate k 0#16 ++ frames.flatten →
        ∃ u : State, execAll (blocks.map rxpushOf) rx = .next u ∧
          rxbPort u.trace = rxbPort rx.trace ++ bytes ∧ u.rxCnt = 0#3 ∧ u.decPol = t.encPol ∧
          u.fsBuf = [frames.flatten.getLastD 0#16]

/-! ### Hamming codec -/

/-- The table of R212. -/
def Sys2Proof.Machine.hammingTable : List Byte :=
  [0x00#8, 0x1B#8, 0x2D#8, 0x36#8, 0x4E#8, 0x55#8, 0x63#8, 0x78#8,
   0x87#8, 0x9C#8, 0xAA#8, 0xB1#8, 0xC9#8, 0xD2#8, 0xE4#8, 0xFF#8]

/-- R212, R213: the parity equations give the table, its sixteen codewords are distinct, and `HENC` responds the
codeword and writes no register. -/
def Obligations.HencRespondsTable : Prop :=
  (∀ n : Nibble, ht n = hammingTable.getD n.toNat 0#8) ∧ hammingTable.Nodup ∧
  ∀ (n : Nibble) (s : State), exec (.henc n) s = .next { s with
    trace := s.trace ++ [.rsp ((hammingTable.getD n.toNat 0#8).setWidth 32)]
    cmdptr := s.cmdptr + 1 }

/-- R214, R215, R216 (a), (b): `HDEC` responds the nibble of the codeword within distance 1 of its operand when there
is one, and `UNCORRECTABLE` when there is none; either way no register changes. -/
def Obligations.HdecFindsNearCodeword : Prop :=
  ∀ (c : Byte) (s : State),
    (∀ n : Nibble, weight (c ^^^ hammingTable.getD n.toNat 0#8) ≤ 1 → exec (.hdec c) s = .next { s with
      trace := s.trace ++ [.rsp (n.setWidth 32)]
      cmdptr := s.cmdptr + 1 }) ∧
    ((∀ n : Nibble, 2 ≤ weight (c ^^^ hammingTable.getD n.toNat 0#8)) → exec (.hdec c) s = .next { s with
      trace := s.trace ++ [.rsp 0x40000000#32]
      cmdptr := s.cmdptr + 1 })

/-- R216 (f): an operand is uncorrectable exactly when it has an even number of 1 bits and is no codeword; 112 of the
256 are, 16 are codewords. R216 (d): two codewords differ in at least 4 bits. -/
def Obligations.UncorrectableInputs : Prop :=
  (∀ c : Byte, hammingDecode c = none ↔ weight c % 2 = 0 ∧ ∀ n : Nibble, c ≠ ht n) ∧
  ((List.range 256).filter (fun k => (hammingDecode (BitVec.ofNat 8 k)).isNone)).length = 112 ∧
  ((List.range 256).filter (fun k => nibbles.any (fun n => decide (BitVec.ofNat 8 k = ht n)))).length = 16 ∧
  ∀ m n : Nibble, m ≠ n → 4 ≤ weight (ht m ^^^ ht n)

/-! ### System operations -/

/-- R41, R43, R230: what `RDREG` responds for every register of the map, and that it writes no register. `CFG_BAUD`
where `BAUD` does not fit 16 bits is left free: the read completes. -/
def Obligations.RdregReadsMap : Prop :=
  ∀ s : State,
    (∀ p ∈ [(0x01#8, s.cfg.frameSize), (0x02#8, s.cfg.sampleRate % 65536), (0x03#8, s.cfg.fMark % 65536),
        (0x04#8, s.cfg.fSpace % 65536), (0x05#8, s.cfg.amp),
        (0x06#8, (if s.cfg.variant = .nrzi then 1 else 0) + 2 * s.cfg.tieBit.toNat),
        (0x08#8, s.receiving.toNat + 2 * (!s.receiving).toNat + 4 * s.encPol.toNat + 8 * s.decPol.toNat
          + 16 * s.rxCnt.toNat),
        (0x09#8, s.rxSr.toNat), (0x0A#8, s.fsBuf.length)],
      exec (.rdreg p.1) s = .next { s with
        trace := s.trace ++ [.rsp (responseWord .ok (BitVec.ofNat 16 p.2))]
        cmdptr := s.cmdptr + 1 }) ∧
    (∃ v : Half, (s.cfg.baud < 65536 → v = BitVec.ofNat 16 s.cfg.baud) ∧ exec (.rdreg 0x00#8) s = .next { s with
      trace := s.trace ++ [.rsp (responseWord .ok v)]
      cmdptr := s.cmdptr + 1 })

/-- R41, R230: `RDREG` of a reserved index is answered `ILLEGAL_FIELD` with `VAL` 0. -/
def Obligations.RdregReservedIndex : Prop :=
  ∀ (s : State) (idx : Byte), idx.toNat = 7 ∨ 0x0B ≤ idx.toNat → exec (.rdreg idx) s = .next { s with
    trace := s.trace ++ [.rsp 0x20000000#32]
    cmdptr := s.cmdptr + 1 }

/-- R231, R282: `SRESET` sets every data register to its reset value, responds 0, emits nothing else, and leaves the
configuration, the stream and the earlier trace alone. -/
def Obligations.SresetRestoresRegisters : Prop :=
  ∀ s : State, exec .sreset s = .next { State.resetWith s.cfg with
    cmd := s.cmd, closed := s.closed
    trace := s.trace ++ [.rsp 0x00000000#32]
    cmdptr := s.cmdptr + 1 }
end

