-- ==== Sys2Proof/Laws/Decode.lean ====
section
/-! SUPPORT. Fields of command words, the opcode map, and decoding by cases. -/

namespace Sys2Proof

/-- The bits of a word put together from two bytes and a half-word. -/
theorem getLsbD_threeFields (a b : Byte) (m : Half) (j : Nat) :
    BitVec.getLsbD (w := 32) (a ++ b ++ m) j =
      if j < 16 then m.getLsbD j else if j < 24 then b.getLsbD (j - 16) else a.getLsbD (j - 24) := by
  change BitVec.getLsbD (w := 8 + 8 + 16) (a ++ b ++ m) j = _
  rw [BitVec.getLsbD_append, BitVec.getLsbD_append]
  split
  · simp [*]
  · by_cases h : j < 24
    · simp [h, show j - 16 < 8 by omega]
    · simp [h, show ¬ j - 16 < 8 by omega, show j - 16 - 8 = j - 24 by omega]

/-- Reading the fields of a word put together from them. -/
theorem fields_of_threeFields (a b : Byte) (m : Half) :
    opc (a ++ b ++ m) = a ∧ rsv (a ++ b ++ m) = b ∧ imm (a ++ b ++ m) = m := by
  refine ⟨?_, ?_, ?_⟩ <;> apply BitVec.eq_of_getLsbD_eq <;> intro i hi
  · simp [opc, getLsbD_threeFields, hi, show ¬ 24 + i < 16 by omega]
  · simp [rsv, getLsbD_threeFields, hi, show 16 + i < 24 by omega]
  · simp [imm, getLsbD_threeFields, hi]

@[simp] theorem opc_commandWord (v : Byte) (m : Half) : opc (commandWord v m) = v := (fields_of_threeFields v 0#8 m).1
@[simp] theorem rsv_commandWord (v : Byte) (m : Half) : rsv (commandWord v m) = 0#8 := (fields_of_threeFields v 0#8 m).2.1
@[simp] theorem imm_commandWord (v : Byte) (m : Half) : imm (commandWord v m) = m := (fields_of_threeFields v 0#8 m).2.2

/-- A word is its three fields (R90). -/
theorem word_fields (w : Word) : opc w ++ rsv w ++ imm w = w := by
  apply BitVec.eq_of_getLsbD_eq
  intro i hi
  rw [getLsbD_threeFields]
  split
  · rename_i h; simp [imm, h]
  · split
    · simp [rsv, show i - 16 < 8 by omega, show 16 + (i - 16) = i by omega]
    · simp [opc, show i - 24 < 8 by omega, show 24 + (i - 24) = i by omega]

/-- Two words with the same fields are the same. -/
theorem word_ext {x y : Word} (h1 : opc x = opc y) (h2 : rsv x = rsv y) (h3 : imm x = imm y) : x = y := by
  rw [← word_fields x, ← word_fields y, h1, h2, h3]

/-- A word whose `RSV` is 0 is the command word of its `OPC` and `IMM`. -/
theorem commandWord_fields {w : Word} (h : rsv w = 0#8) : commandWord (opc w) (imm w) = w := by
  conv_rhs => rw [← word_fields w, h]
  rfl

@[simp] theorem ofCode_code (op : Op) : Op.ofCode op.code = some op := by cases op <;> rfl

/-- The opcode map is exactly the thirteen codes (R92). -/
theorem ofCode_eq_some {v : Byte} {op : Op} : Op.ofCode v = some op ↔ v = op.code := by
  constructor
  · have h : ∀ v : Byte, ((Op.ofCode v).map Op.code).getD v = v := by decide
    intro hv
    have := h v
    rw [hv] at this
    exact this.symm
  · rintro rfl; simp

/-- The bits an operation's command must have zero are zero in its encoding (R93). -/
theorem imm_and_immZero (i : Instr) : i.imm &&& i.op.immZero = 0#16 := by
  cases i with
  | synth s => cases s <;> rfl
  | lenc s => cases s <;> rfl
  | txbit s => cases s <;> rfl
  | ldec s => cases s <;> rfl
  | txbyte v => revert v; decide
  | hdec v => revert v; decide
  | rdreg v => revert v; decide
  | henc v => revert v; decide
  | detect _ => simp [Instr.imm]
  | rxframe _ => simp [Instr.imm]
  | spush _ => simp [Instr.op, Op.immZero]
  | rxpush _ => simp [Instr.op, Op.immZero]
  | sreset => rfl

/-- An operation reads back the operand it is encoded with (R93). -/
theorem command_imm (i : Instr) : i.op.command i.imm i.payload = i := by
  cases i with
  | synth s => cases s <;> rfl
  | lenc s => cases s <;> rfl
  | txbit s => cases s <;> rfl
  | ldec s => cases s <;> rfl
  | txbyte v => revert v; decide
  | hdec v => revert v; decide
  | rdreg v => revert v; decide
  | henc v => revert v; decide
  | detect _ => rfl
  | rxframe _ => rfl
  | spush _ => rfl
  | rxpush _ => rfl
  | sreset => rfl

/-- A well-formed command owns as many payload words as its command word says (R94). -/
theorem paylen_encode {c : Cfg} {i : Instr} (h : i.wf c = true) :
    paylen c (commandWord i.op.code i.imm) = i.payload.length := by
  unfold paylen
  simp only [opc_commandWord, imm_commandWord]
  cases i <;>
    simp_all [Instr.op, Op.code, Instr.payload, Instr.wf, framePayloadOk, blockPayloadOk, Instr.imm] <;> omega

/-- How many payload words a legal operation code owns (R94). -/
theorem command_payload_length {c : Cfg} {w : Word} {op : Op} (h : opc w = op.code) (pay : List Word)
    (hp : pay.length = paylen c w) : (op.command (imm w) pay).payload.length = paylen c w := by
  cases op <;> simp_all [paylen, Op.code, Op.command, Instr.payload]

theorem command_op (op : Op) (m : Half) (pay : List Word) : (op.command m pay).op = op := by cases op <;> rfl

/-- What a successful decoding says of the words (R100). -/
theorem decode_ok {c : Cfg} {ws rest : List Word} {i : Instr} (h : decode c ws = .ok (i, rest)) :
    ∃ (w : Word) (tail : List Word) (op : Op), ws = w :: tail ∧ paylen c w ≤ tail.length ∧ opc w = op.code ∧ rsv w = 0#8 ∧
      imm w &&& op.immZero = 0#16 ∧ i = op.command (imm w) (tail.take (paylen c w)) ∧ rest = tail.drop (paylen c w) := by
  match ws with
  | [] => simp [decode] at h
  | w :: tail =>
    rw [decode] at h
    by_cases hl : tail.length < paylen c w
    · rw [if_pos hl] at h; cases h
    · rw [if_neg hl] at h
      cases hop : Op.ofCode (opc w) with
      | none => rw [hop] at h; cases h
      | some op =>
        simp only [hop] at h
        by_cases hz : rsv w = 0#8 ∧ imm w &&& op.immZero = 0#16
        · rw [if_pos hz] at h
          simp only [Except.ok.injEq, Prod.mk.injEq] at h
          exact ⟨w, tail, op, rfl, by omega, ofCode_eq_some.mp hop, hz.1, hz.2, h.1.symm, h.2.symm⟩
        · rw [if_neg hz] at h; cases h

/-- Decoding a legal command whose payload is present (R100). -/
theorem decode_legal {c : Cfg} {w : Word} {tail : List Word} {op : Op} (hl : paylen c w ≤ tail.length)
    (ho : opc w = op.code) (hr : rsv w = 0#8) (hm : imm w &&& op.immZero = 0#16) :
    decode c (w :: tail) = .ok (op.command (imm w) (tail.take (paylen c w)), tail.drop (paylen c w)) := by
  simp only [decode, ho, ofCode_code, hr, hm, and_self, if_true]
  rw [if_neg (by omega)]

/-- A decoded command takes the words it was decoded from. -/
theorem decode_ok_length {c : Cfg} {ws rest : List Word} {i : Instr} (h : decode c ws = .ok (i, rest)) :
    ∃ w tail, ws = w :: tail ∧ paylen c w ≤ tail.length ∧ i.length = 1 + paylen c w := by
  obtain ⟨w, tail, op, rfl, hl, ho, -, -, rfl, -⟩ := decode_ok h
  refine ⟨w, tail, rfl, hl, ?_⟩
  rw [Instr.length, command_payload_length (c := c) ho _ (by simp [hl])]

/-- A row of the opcode table is hit by its operation code, `RSV` 0, and its must-be-0 bits 0 (R92). -/
theorem row_hits_iff {row : OpRow} (hrow : row ∈ opcodeTable) (w : Word) :
    row.hits w = true ↔ opc w = row.op.code ∧ rsv w = 0#8 ∧ imm w &&& row.op.immZero = 0#16 := by
  have hrow' : row.mask = 0xFF#8 ++ 0xFF#8 ++ row.op.immZero ∧ row.val = commandWord row.op.code 0#16 := by
    revert row
    decide
  obtain ⟨m1, m2, m3⟩ := fields_of_threeFields 0xFF#8 0xFF#8 row.op.immZero
  have f1 : opc (w &&& row.mask) = opc w := by
    rw [hrow'.1, opc, BitVec.extractLsb'_and, ← opc, ← opc, m1]; exact BitVec.and_allOnes
  have f2 : rsv (w &&& row.mask) = rsv w := by
    rw [hrow'.1, rsv, BitVec.extractLsb'_and, ← rsv, ← rsv, m2]; exact BitVec.and_allOnes
  have f3 : imm (w &&& row.mask) = imm w &&& row.op.immZero := by
    rw [hrow'.1, imm, BitVec.extractLsb'_and, ← imm, ← imm, m3]
  rw [OpRow.hits, decide_eq_true_eq, hrow'.2]
  constructor
  · intro h
    rw [← f1, ← f2, ← f3, h]
    simp
  · rintro ⟨h1, h2, h3⟩
    exact word_ext (by rw [f1, h1, opc_commandWord]) (by rw [f2, h2, rsv_commandWord]) (by rw [f3, h3, imm_commandWord])

/-- A reserved operation code owns no payload (R94, R253). -/
theorem paylen_of_reserved {c : Cfg} {w : Word} (h : Op.ofCode (opc w) = none) : paylen c w = 0 := by
  unfold paylen
  have hne : ∀ op : Op, opc w ≠ op.code := by
    intro op ho
    rw [ho, ofCode_code] at h
    cases h
  rw [if_neg, if_neg]
  · exact fun h => h.elim (hne .spush) (hne .rxpush)
  · exact fun h => h.elim (hne .detect) (hne .rxframe)

/-- What an answer of a reserved operation code says of the words. -/
theorem decode_illegalOpcode {c : Cfg} {ws : List Word} {code : Byte} (h : decode c ws = .error (.illegalOpcode code)) :
    ∃ w tail, ws = w :: tail ∧ opc w = code ∧ Op.ofCode code = none ∧ paylen c w = 0 := by
  match ws with
  | [] => simp [decode] at h
  | w :: tail =>
    rw [decode] at h
    by_cases hl : tail.length < paylen c w
    · rw [if_pos hl] at h; cases h
    · rw [if_neg hl] at h
      cases hop : Op.ofCode (opc w) with
      | none =>
        simp only [hop, Except.error.injEq, DecodeError.illegalOpcode.injEq] at h
        exact ⟨w, tail, rfl, h, h ▸ hop, paylen_of_reserved hop⟩
      | some op =>
        simp only [hop] at h
        by_cases hz : rsv w = 0#8 ∧ imm w &&& op.immZero = 0#16
        · rw [if_pos hz] at h; cases h
        · rw [if_neg hz] at h; cases h

/-- What an answer of a must-be-0 bit says of the words. -/
theorem decode_illegalField {c : Cfg} {ws : List Word} {n : Nat} (h : decode c ws = .error (.illegalField n)) :
    ∃ w tail, ws = w :: tail ∧ n = paylen c w ∧ paylen c w ≤ tail.length := by
  match ws with
  | [] => simp [decode] at h
  | w :: tail =>
    rw [decode] at h
    by_cases hl : tail.length < paylen c w
    · rw [if_pos hl] at h; cases h
    · rw [if_neg hl] at h
      cases hop : Op.ofCode (opc w) with
      | none => rw [hop] at h; cases h
      | some op =>
        simp only [hop] at h
        by_cases hz : rsv w = 0#8 ∧ imm w &&& op.immZero = 0#16
        · rw [if_pos hz] at h; cases h
        · rw [if_neg hz] at h
          simp only [Except.error.injEq, DecodeError.illegalField.injEq] at h
          exact ⟨w, tail, rfl, h.symm, by omega⟩

/-- A reserved operation code is answered as such (R95, R253). -/
theorem decode_of_reserved {c : Cfg} {w : Word} {tail : List Word} (h : Op.ofCode (opc w) = none) :
    decode c (w :: tail) = .error (.illegalOpcode (opc w)) := by
  simp [decode, paylen_of_reserved h, h]

/-- A must-be-0 bit is answered as such, once the payload is present (R95, R254). -/
theorem decode_of_badField {c : Cfg} {w : Word} {tail : List Word} {op : Op} (hl : paylen c w ≤ tail.length)
    (ho : Op.ofCode (opc w) = some op) (h : ¬(rsv w = 0#8 ∧ imm w &&& op.immZero = 0#16)) :
    decode c (w :: tail) = .error (.illegalField (paylen c w)) := by
  rw [decode, if_neg (by omega)]
  simp only [ho]
  rw [if_neg h]

end Sys2Proof
end

