-- ==== Sys2Proof/Laws/State.lean ====
section
/-! SUPPORT. One lemma per field per update of the state. -/

namespace Sys2Proof.Machine

variable (s : State)

/-! ### emit -/

@[simp] theorem emit_cfg (e : Event) : (s.emit e).cfg = s.cfg := rfl
@[simp] theorem emit_encPol (e : Event) : (s.emit e).encPol = s.encPol := rfl
@[simp] theorem emit_decPol (e : Event) : (s.emit e).decPol = s.decPol := rfl
@[simp] theorem emit_rxSr (e : Event) : (s.emit e).rxSr = s.rxSr := rfl
@[simp] theorem emit_rxCnt (e : Event) : (s.emit e).rxCnt = s.rxCnt := rfl
@[simp] theorem emit_fsBuf (e : Event) : (s.emit e).fsBuf = s.fsBuf := rfl
@[simp] theorem emit_fsState (e : Event) : (s.emit e).fsState = s.fsState := rfl
@[simp] theorem emit_receiving (e : Event) : (s.emit e).receiving = s.receiving := rfl
@[simp] theorem emit_cmdptr (e : Event) : (s.emit e).cmdptr = s.cmdptr := rfl
@[simp] theorem emit_cmd (e : Event) : (s.emit e).cmd = s.cmd := rfl
@[simp] theorem emit_closed (e : Event) : (s.emit e).closed = s.closed := rfl
@[simp] theorem emit_trace (e : Event) : (s.emit e).trace = s.trace ++ [e] := rfl

/-! ### respond -/

@[simp] theorem respond_cfg (st : Stat) (v : Half) : (s.respond st v).cfg = s.cfg := rfl
@[simp] theorem respond_encPol (st : Stat) (v : Half) : (s.respond st v).encPol = s.encPol := rfl
@[simp] theorem respond_decPol (st : Stat) (v : Half) : (s.respond st v).decPol = s.decPol := rfl
@[simp] theorem respond_rxSr (st : Stat) (v : Half) : (s.respond st v).rxSr = s.rxSr := rfl
@[simp] theorem respond_rxCnt (st : Stat) (v : Half) : (s.respond st v).rxCnt = s.rxCnt := rfl
@[simp] theorem respond_fsBuf (st : Stat) (v : Half) : (s.respond st v).fsBuf = s.fsBuf := rfl
@[simp] theorem respond_fsState (st : Stat) (v : Half) : (s.respond st v).fsState = s.fsState := rfl
@[simp] theorem respond_receiving (st : Stat) (v : Half) : (s.respond st v).receiving = s.receiving := rfl
@[simp] theorem respond_cmdptr (st : Stat) (v : Half) : (s.respond st v).cmdptr = s.cmdptr := rfl
@[simp] theorem respond_cmd (st : Stat) (v : Half) : (s.respond st v).cmd = s.cmd := rfl
@[simp] theorem respond_closed (st : Stat) (v : Half) : (s.respond st v).closed = s.closed := rfl
@[simp] theorem respond_trace (st : Stat) (v : Half) : (s.respond st v).trace = s.trace ++ [.rsp (responseWord st v)] := rfl

/-! ### advance -/

@[simp] theorem advance_cfg (n : Nat) : (s.advance n).cfg = s.cfg := rfl
@[simp] theorem advance_encPol (n : Nat) : (s.advance n).encPol = s.encPol := rfl
@[simp] theorem advance_decPol (n : Nat) : (s.advance n).decPol = s.decPol := rfl
@[simp] theorem advance_rxSr (n : Nat) : (s.advance n).rxSr = s.rxSr := rfl
@[simp] theorem advance_rxCnt (n : Nat) : (s.advance n).rxCnt = s.rxCnt := rfl
@[simp] theorem advance_fsBuf (n : Nat) : (s.advance n).fsBuf = s.fsBuf := rfl
@[simp] theorem advance_fsState (n : Nat) : (s.advance n).fsState = s.fsState := rfl
@[simp] theorem advance_receiving (n : Nat) : (s.advance n).receiving = s.receiving := rfl
@[simp] theorem advance_cmdptr (n : Nat) : (s.advance n).cmdptr = s.cmdptr + n := rfl
@[simp] theorem advance_cmd (n : Nat) : (s.advance n).cmd = s.cmd := rfl
@[simp] theorem advance_closed (n : Nat) : (s.advance n).closed = s.closed := rfl
@[simp] theorem advance_trace (n : Nat) : (s.advance n).trace = s.trace := rfl

/-! ### pushBlock -/

@[simp] theorem pushBlock_cfg (xs : List Sample) : (s.pushBlock xs).cfg = s.cfg := rfl
@[simp] theorem pushBlock_encPol (xs : List Sample) : (s.pushBlock xs).encPol = s.encPol := rfl
@[simp] theorem pushBlock_decPol (xs : List Sample) : (s.pushBlock xs).decPol = s.decPol := rfl
@[simp] theorem pushBlock_rxSr (xs : List Sample) : (s.pushBlock xs).rxSr = s.rxSr := rfl
@[simp] theorem pushBlock_rxCnt (xs : List Sample) : (s.pushBlock xs).rxCnt = s.rxCnt := rfl
@[simp] theorem pushBlock_fsBuf (xs : List Sample) : (s.pushBlock xs).fsBuf = s.fsBuf ++ xs := rfl
@[simp] theorem pushBlock_fsState (xs : List Sample) : (s.pushBlock xs).fsState = s.fsState := rfl
@[simp] theorem pushBlock_receiving (xs : List Sample) : (s.pushBlock xs).receiving = s.receiving := rfl
@[simp] theorem pushBlock_cmdptr (xs : List Sample) : (s.pushBlock xs).cmdptr = s.cmdptr := rfl
@[simp] theorem pushBlock_cmd (xs : List Sample) : (s.pushBlock xs).cmd = s.cmd := rfl
@[simp] theorem pushBlock_closed (xs : List Sample) : (s.pushBlock xs).closed = s.closed := rfl
@[simp] theorem pushBlock_trace (xs : List Sample) : (s.pushBlock xs).trace = s.trace := rfl

/-! ### strip -/

@[simp] theorem strip_cfg : (s.strip).cfg = s.cfg := rfl
@[simp] theorem strip_encPol : (s.strip).encPol = s.encPol := rfl
@[simp] theorem strip_decPol : (s.strip).decPol = s.decPol := rfl
@[simp] theorem strip_rxSr : (s.strip).rxSr = s.rxSr := rfl
@[simp] theorem strip_rxCnt : (s.strip).rxCnt = s.rxCnt := rfl
@[simp] theorem strip_fsBuf : (s.strip).fsBuf = stripZeros s.fsBuf := rfl
@[simp] theorem strip_fsState : (s.strip).fsState = s.fsState := rfl
@[simp] theorem strip_receiving : (s.strip).receiving = s.receiving := rfl
@[simp] theorem strip_cmdptr : (s.strip).cmdptr = s.cmdptr := rfl
@[simp] theorem strip_cmd : (s.strip).cmd = s.cmd := rfl
@[simp] theorem strip_closed : (s.strip).closed = s.closed := rfl
@[simp] theorem strip_trace : (s.strip).trace = s.trace := rfl

/-! ### dropFrame -/

@[simp] theorem dropFrame_cfg (n : Nat) : (s.dropFrame n).cfg = s.cfg := rfl
@[simp] theorem dropFrame_encPol (n : Nat) : (s.dropFrame n).encPol = s.encPol := rfl
@[simp] theorem dropFrame_decPol (n : Nat) : (s.dropFrame n).decPol = s.decPol := rfl
@[simp] theorem dropFrame_rxSr (n : Nat) : (s.dropFrame n).rxSr = s.rxSr := rfl
@[simp] theorem dropFrame_rxCnt (n : Nat) : (s.dropFrame n).rxCnt = s.rxCnt := rfl
@[simp] theorem dropFrame_fsBuf (n : Nat) : (s.dropFrame n).fsBuf = s.fsBuf.drop n := rfl
@[simp] theorem dropFrame_fsState (n : Nat) : (s.dropFrame n).fsState = s.fsState := rfl
@[simp] theorem dropFrame_receiving (n : Nat) : (s.dropFrame n).receiving = s.receiving := rfl
@[simp] theorem dropFrame_cmdptr (n : Nat) : (s.dropFrame n).cmdptr = s.cmdptr := rfl
@[simp] theorem dropFrame_cmd (n : Nat) : (s.dropFrame n).cmd = s.cmd := rfl
@[simp] theorem dropFrame_closed (n : Nat) : (s.dropFrame n).closed = s.closed := rfl
@[simp] theorem dropFrame_trace (n : Nat) : (s.dropFrame n).trace = s.trace := rfl

/-! ### clearReceiving -/

@[simp] theorem clearReceiving_cfg : (s.clearReceiving).cfg = s.cfg := rfl
@[simp] theorem clearReceiving_encPol : (s.clearReceiving).encPol = s.encPol := rfl
@[simp] theorem clearReceiving_decPol : (s.clearReceiving).decPol = s.decPol := rfl
@[simp] theorem clearReceiving_rxSr : (s.clearReceiving).rxSr = s.rxSr := rfl
@[simp] theorem clearReceiving_rxCnt : (s.clearReceiving).rxCnt = s.rxCnt := rfl
@[simp] theorem clearReceiving_fsBuf : (s.clearReceiving).fsBuf = s.fsBuf := rfl
@[simp] theorem clearReceiving_fsState : (s.clearReceiving).fsState = s.fsState := rfl
@[simp] theorem clearReceiving_receiving : (s.clearReceiving).receiving = false := rfl
@[simp] theorem clearReceiving_cmdptr : (s.clearReceiving).cmdptr = s.cmdptr := rfl
@[simp] theorem clearReceiving_cmd : (s.clearReceiving).cmd = s.cmd := rfl
@[simp] theorem clearReceiving_closed : (s.clearReceiving).closed = s.closed := rfl
@[simp] theorem clearReceiving_trace : (s.clearReceiving).trace = s.trace ++ [.evt .inactive] := rfl

/-! ### sendSymbol -/

@[simp] theorem sendSymbol_cfg (b : Bit) : (s.sendSymbol b).cfg = s.cfg := rfl
@[simp] theorem sendSymbol_encPol (b : Bit) : (s.sendSymbol b).encPol = s.encPol := rfl
@[simp] theorem sendSymbol_decPol (b : Bit) : (s.sendSymbol b).decPol = s.decPol := rfl
@[simp] theorem sendSymbol_rxSr (b : Bit) : (s.sendSymbol b).rxSr = s.rxSr := rfl
@[simp] theorem sendSymbol_rxCnt (b : Bit) : (s.sendSymbol b).rxCnt = s.rxCnt := rfl
@[simp] theorem sendSymbol_fsBuf (b : Bit) : (s.sendSymbol b).fsBuf = s.fsBuf := rfl
@[simp] theorem sendSymbol_fsState (b : Bit) : (s.sendSymbol b).fsState = s.fsState := rfl
@[simp] theorem sendSymbol_receiving (b : Bit) : (s.sendSymbol b).receiving = s.receiving := rfl
@[simp] theorem sendSymbol_cmdptr (b : Bit) : (s.sendSymbol b).cmdptr = s.cmdptr := rfl
@[simp] theorem sendSymbol_cmd (b : Bit) : (s.sendSymbol b).cmd = s.cmd := rfl
@[simp] theorem sendSymbol_closed (b : Bit) : (s.sendSymbol b).closed = s.closed := rfl
@[simp] theorem sendSymbol_trace (b : Bit) : (s.sendSymbol b).trace = s.trace ++ [.txs (toneFrame s.cfg b)] := rfl

/-! ### resetData -/

@[simp] theorem resetData_cfg : (s.resetData).cfg = s.cfg := rfl
@[simp] theorem resetData_encPol : (s.resetData).encPol = true := rfl
@[simp] theorem resetData_decPol : (s.resetData).decPol = true := rfl
@[simp] theorem resetData_rxSr : (s.resetData).rxSr = 0#8 := rfl
@[simp] theorem resetData_rxCnt : (s.resetData).rxCnt = 0#3 := rfl
@[simp] theorem resetData_fsBuf : (s.resetData).fsBuf = [] := rfl
@[simp] theorem resetData_fsState : (s.resetData).fsState = .seeking := rfl
@[simp] theorem resetData_receiving : (s.resetData).receiving = false := rfl
@[simp] theorem resetData_cmdptr : (s.resetData).cmdptr = s.cmdptr := rfl
@[simp] theorem resetData_cmd : (s.resetData).cmd = s.cmd := rfl
@[simp] theorem resetData_closed : (s.resetData).closed = s.closed := rfl
@[simp] theorem resetData_trace : (s.resetData).trace = s.trace := rfl

/-! ### assertReceiving -/

@[simp] theorem assertReceiving_cfg : (s.assertReceiving).cfg = s.cfg := by
  cases h : s.receiving <;> simp [State.assertReceiving, h]
@[simp] theorem assertReceiving_encPol : (s.assertReceiving).encPol = s.encPol := by
  cases h : s.receiving <;> simp [State.assertReceiving, h]
@[simp] theorem assertReceiving_decPol : (s.assertReceiving).decPol = s.decPol := by
  cases h : s.receiving <;> simp [State.assertReceiving, h]
@[simp] theorem assertReceiving_rxSr : (s.assertReceiving).rxSr = s.rxSr := by
  cases h : s.receiving <;> simp [State.assertReceiving, h]
@[simp] theorem assertReceiving_rxCnt : (s.assertReceiving).rxCnt = s.rxCnt := by
  cases h : s.receiving <;> simp [State.assertReceiving, h]
@[simp] theorem assertReceiving_fsBuf : (s.assertReceiving).fsBuf = s.fsBuf := by
  cases h : s.receiving <;> simp [State.assertReceiving, h]
@[simp] theorem assertReceiving_fsState : (s.assertReceiving).fsState = s.fsState := by
  cases h : s.receiving <;> simp [State.assertReceiving, h]
@[simp] theorem assertReceiving_receiving : (s.assertReceiving).receiving = true := by
  cases h : s.receiving <;> simp [State.assertReceiving, h]
@[simp] theorem assertReceiving_cmdptr : (s.assertReceiving).cmdptr = s.cmdptr := by
  cases h : s.receiving <;> simp [State.assertReceiving, h]
@[simp] theorem assertReceiving_cmd : (s.assertReceiving).cmd = s.cmd := by
  cases h : s.receiving <;> simp [State.assertReceiving, h]
@[simp] theorem assertReceiving_closed : (s.assertReceiving).closed = s.closed := by
  cases h : s.receiving <;> simp [State.assertReceiving, h]
@[simp] theorem assertReceiving_trace : (s.assertReceiving).trace = s.trace ++ (if s.receiving then [] else [.evt .active]) := by
  cases h : s.receiving <;> simp [State.assertReceiving, h]

/-! ### the reset state -/

@[simp] theorem reset_eq : State.reset = State.resetWith Cfg.default := rfl
@[simp] theorem resetWith_cfg (c : Cfg) : (State.resetWith c).cfg = c := rfl
@[simp] theorem resetWith_cmdptr (c : Cfg) : (State.resetWith c).cmdptr = 0 := rfl
@[simp] theorem resetWith_trace (c : Cfg) : (State.resetWith c).trace = [] := rfl

end Sys2Proof.Machine
end

