-- ==== Sys2Proof/Laws/Ops.lean ====
section
/-! SUPPORT. What each shared operation can do, once: the zero strip, the line coder, the byte assembler, the EMITTING loop, one block. -/

namespace Sys2Proof.Machine

/-! ### The zero strip (R183) -/

@[simp] theorem stripZeros_nil : stripZeros [] = [] := rfl
@[simp] theorem stripZeros_single (a : Sample) : stripZeros [a] = [a] := rfl

theorem stripZeros_zero_zero (l : List Sample) : stripZeros (0#16 :: 0#16 :: l) = stripZeros (0#16 :: l) := by
  simp [stripZeros]

theorem stripZeros_cons_of_ne {a : Sample} (h : a ≠ 0#16) (l : List Sample) : stripZeros (a :: l) = a :: l := by
  cases l <;> simp [stripZeros, h]

theorem stripZeros_zero_cons_of_ne {b : Sample} (h : b ≠ 0#16) (l : List Sample) :
    stripZeros (0#16 :: b :: l) = 0#16 :: b :: l := by
  simp [stripZeros, h]

/-- The strip only drops front samples (R183). -/
theorem stripZeros_suffix (l : List Sample) : stripZeros l <:+ l := by
  induction l using stripZeros.induct with
  | case1 => simp
  | case2 a => simp
  | case3 a b rest h ih => rw [stripZeros, if_pos h]; exact ih.trans (List.suffix_cons _ _)
  | case4 a b rest h => rw [stripZeros, if_neg h]

theorem stripZeros_length_le (l : List Sample) : (stripZeros l).length ≤ l.length := (stripZeros_suffix l).length_le

/-- A run of leading zeros is reduced to one (R190). -/
theorem stripZeros_replicate_append (k : Nat) (l : List Sample) :
    stripZeros (List.replicate (k + 1) 0#16 ++ l) = stripZeros (0#16 :: l) := by
  induction k with
  | zero => rfl
  | succ k ih =>
    rw [List.replicate_succ, List.cons_append, List.replicate_succ, List.cons_append, stripZeros_zero_zero, ← ih,
      List.replicate_succ, List.cons_append]

/-- A list with no two consecutive zeros is left alone (R190). -/
theorem stripZeros_eq_self {l : List Sample} (h : hasZeroPair l = false) : stripZeros l = l := by
  match l with
  | [] => rfl
  | [_] => rfl
  | a :: b :: rest =>
    simp only [hasZeroPair, Bool.or_eq_false_iff, Bool.and_eq_false_iff, decide_eq_false_iff_not] at h
    rw [stripZeros, if_neg]
    tauto

/-- A suffix of a list with no two consecutive zeros has none. -/
theorem hasZeroPair_of_suffix {l m : List Sample} (hs : l <:+ m) (h : hasZeroPair m = false) :
    hasZeroPair l = false := by
  induction m with
  | nil => simp_all
  | cons a m ih =>
    rcases List.suffix_cons_iff.mp hs with rfl | hs
    · exact h
    · apply ih hs
      cases m with
      | nil => rfl
      | cons b m => simp only [hasZeroPair, Bool.or_eq_false_iff] at h; exact h.2

theorem hasZeroPair_of_prefix {l m : List Sample} (hs : l <+: m) (h : hasZeroPair m = false) :
    hasZeroPair l = false := by
  induction l generalizing m with
  | nil => rfl
  | cons a l ih =>
    obtain ⟨t, rfl⟩ := hs
    match l with
    | [] => rfl
    | b :: l =>
      simp only [List.cons_append, hasZeroPair, Bool.or_eq_false_iff] at h ⊢
      exact ⟨h.1, ih ⟨t, rfl⟩ h.2⟩

/-! ### The line coder (R141, R142) -/

theorem lineEncode_standard {s : State} (h : s.cfg.variant = .standard) (b : Bit) : lineEncode b s = (b, s) := by
  simp [lineEncode, h]

theorem lineEncode_nrzi {s : State} (h : s.cfg.variant = .nrzi) (b : Bit) :
    lineEncode b s = (b ^^ s.encPol, { s with encPol := b ^^ s.encPol }) := by
  cases b <;> simp [lineEncode, h]

theorem lineDecode_standard {s : State} (h : s.cfg.variant = .standard) (p : Bit) : lineDecode p s = (p, s) := by
  simp [lineDecode, h]

theorem lineDecode_nrzi {s : State} (h : s.cfg.variant = .nrzi) (p : Bit) :
    lineDecode p s = (p ^^ s.decPol, { s with decPol := p }) := by
  cases p <;> simp [lineDecode, h]

/-- The encoder step writes `ENC_POL` and nothing else. -/
theorem lineEncode_snd (b : Bit) (s : State) : ∃ e, (lineEncode b s).2 = { s with encPol := e } := by
  unfold lineEncode
  split
  · exact ⟨s.encPol, rfl⟩
  · exact ⟨_, rfl⟩

/-- The decoder step writes `DEC_POL` and nothing else. -/
theorem lineDecode_snd (p : Bit) (s : State) : ∃ e, (lineDecode p s).2 = { s with decPol := e } := by
  unfold lineDecode
  split
  · exact ⟨s.decPol, rfl⟩
  · exact ⟨_, rfl⟩

theorem variant_cases (c : Cfg) : c.variant = .standard ∨ c.variant = .nrzi := by
  cases c.variant <;> simp

/-! ### The byte assembler (R165) -/

/-- The shift register after one more bit. -/
abbrev shiftIn (sr : Byte) (b : Bit) : Byte := sr.extractLsb' 0 7 ++ BitVec.ofBool b

theorem rxBit_eighth {s : State} (h : s.rxCnt = 7#3) (b : Bit) :
    rxBit b s = (true, ({ s with rxSr := shiftIn s.rxSr b, rxCnt := 0#3 } : State).emit (.rxb (shiftIn s.rxSr b))) := by
  simp [rxBit, h]

theorem rxBit_earlier {s : State} (h : s.rxCnt ≠ 7#3) (b : Bit) :
    rxBit b s = (false, { s with rxSr := shiftIn s.rxSr b, rxCnt := s.rxCnt + 1#3 }) := by
  simp [rxBit, h]

/-- What consuming one frame does: it writes `DEC_POL`, `RX_SR`, `RX_CNT`, and emits one `RXB` exactly when it
completes a byte (R166). -/
theorem receiveFrame_next (f : Frame) (s : State) :
    ∃ d sr cnt, (receiveFrame f s).next = { s with
      decPol := d, rxSr := sr, rxCnt := cnt
      trace := s.trace ++ if (receiveFrame f s).byte then [.rxb sr] else [] } := by
  obtain ⟨d, hd⟩ := lineDecode_snd (detect s.cfg f) s
  simp only [receiveFrame, hd]
  rcases eq_or_ne s.rxCnt 7#3 with h | h
  · rw [rxBit_eighth (by exact h)]
    exact ⟨d, _, _, rfl⟩
  · rw [rxBit_earlier (by exact h)]
    exact ⟨d, _, _, by simp; exact ⟨rfl, rfl⟩⟩

/-- Consuming a frame depends on and writes nothing of the trace but its end. -/
theorem receiveFrame_bit_byte (f : Frame) (s : State) :
    (receiveFrame f s).byte = decide (s.rxCnt = 7#3) := by
  obtain ⟨d, hd⟩ := lineDecode_snd (detect s.cfg f) s
  simp only [receiveFrame, hd]
  rcases eq_or_ne s.rxCnt 7#3 with h | h
  · rw [rxBit_eighth (by exact h)]; simp [h]
  · rw [rxBit_earlier (by exact h)]; simp [h]

/-! ### What an operation may leave behind -/

/-- `t` is `s` with events appended to the trace, each satisfying `P`, and the stream, its pointer and the
configuration as they were. -/
structure Emits (P : Event → Prop) (s t : State) : Prop where
  cfg    : t.cfg = s.cfg
  cmdptr : t.cmdptr = s.cmdptr
  cmd    : t.cmd = s.cmd
  closed : t.closed = s.closed
  events : ∃ evs, t.trace = s.trace ++ evs ∧ ∀ e ∈ evs, P e

theorem Emits.refl {P : Event → Prop} (s : State) : Emits P s s := ⟨rfl, rfl, rfl, rfl, [], by simp, by simp⟩

theorem Emits.trans {P : Event → Prop} {s t u : State} (h : Emits P s t) (g : Emits P t u) : Emits P s u := by
  obtain ⟨es, he, hP⟩ := h.events
  obtain ⟨fs, hf, hQ⟩ := g.events
  refine ⟨g.cfg.trans h.cfg, g.cmdptr.trans h.cmdptr, g.cmd.trans h.cmd, g.closed.trans h.closed, es ++ fs, ?_, ?_⟩
  · rw [hf, he, List.append_assoc]
  · intro e hm
    rcases List.mem_append.mp hm with hm | hm
    · exact hP e hm
    · exact hQ e hm

theorem Emits.emit {P : Event → Prop} {s t : State} (h : Emits P s t) {e : Event} (he : P e) : Emits P s (t.emit e) := by
  obtain ⟨es, hes, hP⟩ := h.events
  exact ⟨h.cfg, h.cmdptr, h.cmd, h.closed, es ++ [e], by simp [hes],
    by simpa [or_imp, forall_and] using ⟨hP, he⟩⟩

/-- An event of a block with configuration `c` that is no response. -/
abbrev Quiet (c : Cfg) (e : Event) : Prop := e.rspWord = none ∧ eventOk c e

theorem lineEncode_emits {P : Event → Prop} (b : Bit) (s : State) : Emits P s (lineEncode b s).2 := by
  obtain ⟨e, h⟩ := lineEncode_snd b s
  rw [h]
  exact ⟨rfl, rfl, rfl, rfl, [], by simp, by simp⟩

theorem lineDecode_emits {P : Event → Prop} (p : Bit) (s : State) : Emits P s (lineDecode p s).2 := by
  obtain ⟨e, h⟩ := lineDecode_snd p s
  rw [h]
  exact ⟨rfl, rfl, rfl, rfl, [], by simp, by simp⟩

theorem sendSymbol_emits (b : Bit) (s : State) : Emits (Quiet s.cfg) s (s.sendSymbol b) :=
  (Emits.refl s).emit ⟨rfl, by cases b <;> simp [eventOk]⟩

theorem sendBit_emits (b : Bit) (s : State) : Emits (Quiet s.cfg) s (sendBit b s).2 := by
  have h := lineEncode_emits (P := Quiet s.cfg) b s
  have g := sendSymbol_emits (lineEncode b s).1 (lineEncode b s).2
  rw [h.cfg] at g
  exact h.trans g

theorem sendBits_emits (bs : List Bit) (v : Half) (s : State) : Emits (Quiet s.cfg) s (sendBits bs v s).2 := by
  induction bs generalizing v s with
  | nil => exact Emits.refl s
  | cons b bs ih =>
    have h := sendBit_emits b s
    have g := ih ((v <<< 1) ||| bitHalf (sendBit b s).1) (sendBit b s).2
    rw [h.cfg] at g
    exact h.trans g

theorem receiveFrame_emits (f : Frame) (s : State) : Emits (Quiet s.cfg) s (receiveFrame f s).next := by
  obtain ⟨d, sr, cnt, h⟩ := receiveFrame_next f s
  rw [h]
  refine ⟨rfl, rfl, rfl, rfl, _, rfl, ?_⟩
  cases (receiveFrame f s).byte <;> simp [Quiet, Event.rspWord, eventOk]

/-! ### The synchronizer (R183 to R187) -/

/-- What a delivery may do: emit, and write registers other than the synchronizer's and the encoder's. -/
structure Deliver.Ok (d : Deliver) : Prop where
  emits     : ∀ (f : Frame) (s : State), f.length = s.cfg.frameSize → Emits (Quiet s.cfg) s (d f s).1
  fsBuf     : ∀ f s, (d f s).1.fsBuf = s.fsBuf
  fsState   : ∀ f s, (d f s).1.fsState = s.fsState
  receiving : ∀ f s, (d f s).1.receiving = s.receiving
  encPol    : ∀ f s, (d f s).1.encPol = s.encPol

theorem deliverAligned_ok : Deliver.Ok deliverAligned where
  emits _ s h := (Emits.refl s).emit ⟨rfl, h⟩
  fsBuf _ _ := rfl
  fsState _ _ := rfl
  receiving _ _ := rfl
  encPol _ _ := rfl

theorem deliverReceived_ok : Deliver.Ok deliverReceived where
  emits f s _ := receiveFrame_emits f s
  fsBuf f s := by obtain ⟨d, sr, cnt, h⟩ := receiveFrame_next f s; simp [deliverReceived, h]
  fsState f s := by obtain ⟨d, sr, cnt, h⟩ := receiveFrame_next f s; simp [deliverReceived, h]
  receiving f s := by obtain ⟨d, sr, cnt, h⟩ := receiveFrame_next f s; simp [deliverReceived, h]
  encPol f s := by obtain ⟨d, sr, cnt, h⟩ := receiveFrame_next f s; simp [deliverReceived, h]

/-- One pass of the `EMITTING` loop. -/
def drainOne (d : Deliver) (r : Drained) : Drained :=
  let n := r.state.cfg.frameSize
  let s := r.state.assertReceiving
  ⟨(d (s.frontFrame n) (s.dropFrame n)).1, r.frames + 1, r.bytes + (d (s.frontFrame n) (s.dropFrame n)).2⟩

theorem emitFrames_stop {d : Deliver} {r : Drained} (h : r.state.fsBuf.length < r.state.cfg.frameSize) (n : Nat) :
    emitFrames d n r = r := by
  cases n with
  | zero => rfl
  | succ n => rw [emitFrames, if_neg (by omega)]

theorem emitFrames_pass {d : Deliver} {r : Drained} (h : r.state.cfg.frameSize ≤ r.state.fsBuf.length) (n : Nat) :
    emitFrames d (n + 1) r = emitFrames d n (drainOne d r) := by
  rw [emitFrames, if_pos h]; rfl

theorem assertReceiving_emits (s : State) : Emits (Quiet s.cfg) s s.assertReceiving := by
  unfold State.assertReceiving
  split
  · exact Emits.refl s
  · have h : Emits (Quiet s.cfg) s ({ s with receiving := true } : State) := ⟨rfl, rfl, rfl, rfl, [], by simp, by simp⟩
    exact h.emit ⟨rfl, trivial⟩

/-- What one pass does to the state. -/
theorem drainOne_spec {d : Deliver} (hd : d.Ok) {r : Drained} (h : r.state.cfg.frameSize ≤ r.state.fsBuf.length) :
    Emits (Quiet r.state.cfg) r.state (drainOne d r).state ∧
      (drainOne d r).state.fsBuf = r.state.fsBuf.drop r.state.cfg.frameSize ∧
      (drainOne d r).state.fsState = r.state.fsState ∧
      (drainOne d r).state.receiving = true ∧ (drainOne d r).state.encPol = r.state.encPol := by
  have hlen : (r.state.assertReceiving.frontFrame r.state.cfg.frameSize).length = r.state.cfg.frameSize := by
    simp [State.frontFrame]; omega
  have h1 := assertReceiving_emits r.state
  have h2 : Emits (Quiet r.state.cfg) r.state.assertReceiving
      (r.state.assertReceiving.dropFrame r.state.cfg.frameSize) := ⟨rfl, rfl, rfl, rfl, [], by simp, by simp⟩
  have h3 := hd.emits _ (r.state.assertReceiving.dropFrame r.state.cfg.frameSize) (by simpa using hlen)
  rw [dropFrame_cfg, assertReceiving_cfg] at h3
  exact ⟨(h1.trans h2).trans h3, by simp [drainOne, hd.fsBuf], by simp [drainOne, hd.fsState],
    by simp [drainOne, hd.receiving], by simp [drainOne, hd.encPol]⟩

/-- What the whole `EMITTING` loop does, when its fuel covers the buffer: it ends with less than a frame buffered. -/
theorem emitFrames_spec {d : Deliver} (hd : d.Ok) (n : Nat) (r : Drained) (hn : r.state.fsBuf.length ≤ n)
    (hpos : 0 < r.state.cfg.frameSize) :
    Emits (Quiet r.state.cfg) r.state (emitFrames d n r).state ∧
      (emitFrames d n r).state.fsBuf.length < r.state.cfg.frameSize ∧
      (emitFrames d n r).state.fsState = r.state.fsState ∧
      (emitFrames d n r).state.encPol = r.state.encPol := by
  induction n generalizing r with
  | zero => exact ⟨Emits.refl _, by simp [emitFrames]; omega, rfl, rfl⟩
  | succ n ih =>
    by_cases h : r.state.cfg.frameSize ≤ r.state.fsBuf.length
    · obtain ⟨h1, h2, h3, -, h4⟩ := drainOne_spec hd h
      have := ih (drainOne d r) (by rw [h2, List.length_drop]; omega) (by rw [h1.cfg]; exact hpos)
      rw [h1.cfg, h3, h4] at this
      rw [emitFrames_pass h]
      exact ⟨h1.trans this.1, this.2⟩
    · rw [emitFrames_stop (by omega)]
      exact ⟨Emits.refl _, by omega, rfl, rfl⟩

/-- What one block does: it emits, and leaves the synchronizer at a boundary if it was at one (R189). -/
theorem syncBlock_spec {d : Deliver} (hd : d.Ok) (xs : List Sample) (s : State) (hpos : 0 < s.cfg.frameSize) :
    Emits (Quiet s.cfg) s (syncBlock d xs s).state ∧
      (syncBlock d xs s).state.fsBuf.length < s.cfg.frameSize ∧
      (s.fsState = .seeking → (syncBlock d xs s).state.fsState = .seeking) ∧
      (s.receiving = false → (syncBlock d xs s).state.receiving = false) ∧
      (syncBlock d xs s).state.encPol = s.encPol := by
  set t := (s.pushBlock xs).strip with ht
  have h0 : Emits (Quiet s.cfg) s t := ⟨rfl, rfl, rfl, rfl, [], by simp [ht], by simp⟩
  have hcfg : t.cfg = s.cfg := rfl
  unfold syncBlock
  simp only [← ht]
  split
  · obtain ⟨h1, h2, -, h4⟩ := emitFrames_spec hd t.fsBuf.length ⟨{ t with fsState := .emitting }, 0, 0⟩ le_rfl
      (by simpa [hcfg] using hpos)
    have h5 : Emits (Quiet s.cfg) t ({ t with fsState := .emitting } : State) :=
      ⟨rfl, rfl, rfl, rfl, [], by simp, by simp⟩
    simp only [hcfg] at h1 h2
    set r := emitFrames d t.fsBuf.length ⟨{ t with fsState := .emitting }, 0, 0⟩
    have h6 : Emits (Quiet s.cfg) r.state ({ r.state.clearReceiving with fsState := .seeking } : State) :=
      ⟨rfl, rfl, rfl, rfl, [.evt .inactive], by simp, by simp [Quiet, Event.rspWord, eventOk]⟩
    exact ⟨((h0.trans h5).trans h1).trans h6, h2, fun _ => rfl, fun _ => rfl, h4⟩
  · rename_i hlt
    exact ⟨h0, by rw [hcfg] at hlt; exact not_le.mp hlt, fun h => h, fun h => h, rfl⟩

/-- A block after which less than a frame is buffered: nothing is emitted (R187). -/
theorem syncBlock_below {d : Deliver} {xs : List Sample} {s : State}
    (h : (stripZeros (s.fsBuf ++ xs)).length < s.cfg.frameSize) :
    syncBlock d xs s = ⟨{ s with fsBuf := stripZeros (s.fsBuf ++ xs) }, 0, 0⟩ := by
  simp only [syncBlock]
  rw [if_neg (by simpa using h)]
  rfl

/-- `EMITTING` just entered, with `rest` buffered: `RECEIVING` asserted (R185, R186). -/
abbrev entered (s : State) (rest : List Sample) : State :=
  { s with fsBuf := rest, fsState := .emitting, receiving := true, trace := s.trace ++ [.evt .active] }

/-- `EMITTING` left again (R186). -/
abbrev left (s : State) : State := { s.clearReceiving with fsState := .seeking }

/-- The first pass of an `EMITTING` excursion asserts the status. -/
theorem drainOne_entered {d : Deliver} {s : State} (hr : s.receiving = false) (v : List Sample) :
    drainOne d ⟨{ s with fsBuf := v, fsState := .emitting }, 0, 0⟩ =
      ⟨(d (v.take s.cfg.frameSize) (entered s (v.drop s.cfg.frameSize))).1, 1,
        (d (v.take s.cfg.frameSize) (entered s (v.drop s.cfg.frameSize))).2⟩ := by
  simp only [drainOne, State.assertReceiving, hr, State.emit, State.dropFrame, State.frontFrame]
  simp [entered]

/-- A block after which one frame is buffered: one frame is delivered (R187). -/
theorem syncBlock_one {d : Deliver} (hd : d.Ok) {xs : List Sample} {s : State} (hr : s.receiving = false)
    {v : List Sample} (hv : stripZeros (s.fsBuf ++ xs) = v)
    (h1 : s.cfg.frameSize ≤ v.length) (h2 : v.length < 2 * s.cfg.frameSize) :
    syncBlock d xs s =
      let r := d (v.take s.cfg.frameSize) (entered s (v.drop s.cfg.frameSize))
      ⟨left r.1, 1, r.2⟩ := by
  have hc : (entered s (v.drop s.cfg.frameSize)).cfg = s.cfg := rfl
  have e1 := (hd.emits (v.take s.cfg.frameSize) (entered s (v.drop s.cfg.frameSize)) (by simp [h1])).cfg
  have e2 := hd.fsBuf (v.take s.cfg.frameSize) (entered s (v.drop s.cfg.frameSize))
  obtain ⟨k, hk⟩ : ∃ k, v.length = k + 1 := ⟨v.length - 1, by omega⟩
  have hs : (s.pushBlock xs).strip = { s with fsBuf := v } := by subst hv; rfl
  simp only [syncBlock, hs]
  rw [if_pos (by simpa using h1), hk, emitFrames_pass (by simpa using h1), drainOne_entered hr, emitFrames_stop]
  simp only [e1, e2, List.length_drop]; omega

/-- A block after which two frames are buffered: both are delivered, in order (R187). -/
theorem syncBlock_two {d : Deliver} (hd : d.Ok) {xs : List Sample} {s : State} (hr : s.receiving = false)
    {v : List Sample} (hv : stripZeros (s.fsBuf ++ xs) = v) (hpos : 0 < s.cfg.frameSize)
    (h : v.length = 2 * s.cfg.frameSize) :
    syncBlock d xs s =
      let r := d (v.take s.cfg.frameSize) (entered s (v.drop s.cfg.frameSize))
      let q := d (v.drop s.cfg.frameSize) { r.1 with fsBuf := [] }
      ⟨left q.1, 2, r.2 + q.2⟩ := by
  have h1 : s.cfg.frameSize ≤ v.length := by omega
  have e1 := (hd.emits (v.take s.cfg.frameSize) (entered s (v.drop s.cfg.frameSize)) (by simp [h1])).cfg
  have e2 := hd.fsBuf (v.take s.cfg.frameSize) (entered s (v.drop s.cfg.frameSize))
  have e3 := hd.receiving (v.take s.cfg.frameSize) (entered s (v.drop s.cfg.frameSize))
  obtain ⟨k, hk⟩ : ∃ k, v.length = k + 1 + 1 := ⟨v.length - 2, by omega⟩
  have hs : (s.pushBlock xs).strip = { s with fsBuf := v } := by subst hv; rfl
  simp only [syncBlock, hs]
  rw [if_pos (by simpa using h1), hk, emitFrames_pass (by simpa using h1), drainOne_entered hr, emitFrames_pass]
  · have e4 : drainOne d ⟨(d (v.take s.cfg.frameSize) (entered s (v.drop s.cfg.frameSize))).1, 1,
        (d (v.take s.cfg.frameSize) (entered s (v.drop s.cfg.frameSize))).2⟩ =
        ⟨(d (v.drop s.cfg.frameSize) { (d (v.take s.cfg.frameSize) (entered s (v.drop s.cfg.frameSize))).1 with fsBuf := [] }).1, 2,
          (d (v.take s.cfg.frameSize) (entered s (v.drop s.cfg.frameSize))).2 +
          (d (v.drop s.cfg.frameSize) { (d (v.take s.cfg.frameSize) (entered s (v.drop s.cfg.frameSize))).1 with fsBuf := [] }).2⟩ := by
      have h5 : List.drop s.cfg.frameSize (List.drop s.cfg.frameSize v) = [] := by
        rw [List.drop_drop]; exact List.drop_eq_nil_of_le (by omega)
      have h6 : List.take s.cfg.frameSize (List.drop s.cfg.frameSize v) = List.drop s.cfg.frameSize v :=
        List.take_of_length_le (by simp; omega)
      simp only [drainOne, State.assertReceiving, e3, if_true, State.frontFrame, State.dropFrame, e2, e1, h5, h6]
    rw [e4, emitFrames_stop]
    have e5 := (hd.emits (v.drop s.cfg.frameSize) { (d (v.take s.cfg.frameSize) (entered s (v.drop s.cfg.frameSize))).1 with fsBuf := [] } (by simp [e1]; omega)).cfg
    exact lt_of_eq_of_lt (congrArg List.length (hd.fsBuf _ _)) (by rw [show _ = s.cfg from e5.trans e1]; exact hpos)
  · simp only [e1, e2, List.length_drop]; omega

/-! ### Payload words and responses (R91, R96) -/

@[simp] theorem smp_payloadWord (v : Sample) : smp (payloadWord v) = v := by
  apply BitVec.eq_of_getLsbD_eq; intro i hi
  simp [smp, payloadWord, hi, show i < 32 by omega]

@[simp] theorem prsv_payloadWord (v : Sample) : prsv (payloadWord v) = 0#16 := by
  apply BitVec.eq_of_getLsbD_eq; intro i hi
  simp [prsv, payloadWord]

/-- A payload word with no reserved bit set is its sample (R91). -/
theorem payloadWord_smp {w : Word} (h : prsv w = 0#16) : payloadWord (smp w) = w := by
  apply BitVec.eq_of_getLsbD_eq; intro i hi
  have := congrArg (fun v => BitVec.getLsbD v (i - 16)) h
  simp [prsv, smp, payloadWord, hi] at this ⊢
  by_cases h16 : i < 16
  · simp [h16]
  · simpa [h16, show i - 16 < 16 by omega, show 16 + (i - 16) = i by omega, hi] using this

/-- The bits of a response word (R96). -/
theorem getLsbD_responseWord (st : Stat) (v : Half) (j : Nat) :
    (responseWord st v).getLsbD j = if j < 16 then v.getLsbD j else if j < 28 then false else st.code.getLsbD (j - 28) := by
  change BitVec.getLsbD (w := 4 + 12 + 16) (st.code ++ 0#12 ++ v) j = _
  rw [BitVec.getLsbD_append, BitVec.getLsbD_append]
  split
  · simp [*]
  · by_cases h : j < 28
    · simp [h, show j - 16 < 12 by omega]
    · simp [h, show ¬ j - 16 < 12 by omega, show j - 16 - 12 = j - 28 by omega]

@[simp] theorem respStat_responseWord (st : Stat) (v : Half) : respStat (responseWord st v) = st.code := by
  apply BitVec.eq_of_getLsbD_eq; intro i hi
  simp [respStat, getLsbD_responseWord, hi, show ¬ 28 + i < 16 by omega]

@[simp] theorem respVal_responseWord (st : Stat) (v : Half) : respVal (responseWord st v) = v := by
  apply BitVec.eq_of_getLsbD_eq; intro i hi
  simp [respVal, getLsbD_responseWord, hi]

/-- Bits [27:16] of a response are zero (R96). -/
theorem responseWord_reserved (st : Stat) (v : Half) : (responseWord st v).extractLsb' 16 12 = 0#12 := by
  apply BitVec.eq_of_getLsbD_eq; intro i hi
  simp [getLsbD_responseWord, show 16 + i < 28 by omega]

/-- Payload words made of samples carry those samples. -/
@[simp] theorem samples_payloadWord (xs : List Sample) : samples (xs.map payloadWord) = xs := by
  simp [samples, Function.comp_def]

/-- Payload words made of samples have no reserved bit set. -/
@[simp] theorem payloadClean_payloadWord (xs : List Sample) : payloadClean (xs.map payloadWord) = true := by
  simp [payloadClean]

@[simp] theorem samples_length (pay : List Word) : (samples pay).length = pay.length := by simp [samples]

/-- Two counts packed into a response value, as a number (R166, R188). -/
theorem packVal_eq (hi lo : Nat) (h : lo < 256) : packVal hi lo = BitVec.ofNat 16 (256 * hi + lo) := by
  apply BitVec.eq_of_toNat_eq
  simp only [packVal, BitVec.toNat_or, BitVec.toNat_shiftLeft, BitVec.toNat_ofNat]
  rw [Nat.mod_eq_of_lt (by omega : lo < 2^16), Nat.shiftLeft_eq]
  have : hi % 2 ^ 16 * 2 ^ 8 % 2 ^ 16 = 2^8 * (hi % 2^8) := by omega
  rw [this, ← Nat.two_pow_add_eq_or_of_lt h]
  omega

/-! ### Sending and receiving whole lists (R127, R166) -/

/-- Sending bits under `STANDARD`. -/
theorem sendBits_standard {s : State} (h : s.cfg.variant = .standard) (bs : List Bit) (v : Half) :
   sendBits bs v s = (bs.foldl (fun (v : Half) b => (v <<< 1) ||| bitHalf b) v, { s with trace := s.trace ++ bs.map (fun y => Event.txs (toneFrame s.cfg y)) }) := by
  induction bs generalizing v s with
  | nil => simp [sendBits]
  | cons b bs ih =>
    simp only [sendBits]
    rw [ih (by simpa [sendBit, lineEncode_standard h] using h)]
    simp [sendBit, lineEncode_standard h, State.sendSymbol, State.emit]

/-- Sending bits under `NRZI`. -/
theorem sendBits_nrzi {s : State} (h : s.cfg.variant = .nrzi) (bs : List Bit) (v : Half) :
   sendBits bs v s = ((nrziSymbols s.encPol bs).foldl (fun (v : Half) b => (v <<< 1) ||| bitHalf b) v,
    { s with encPol := (nrziSymbols s.encPol bs).getLastD s.encPol, trace := s.trace ++ (nrziSymbols s.encPol bs).map (fun y => Event.txs (toneFrame s.cfg y)) }) := by
  induction bs generalizing v s with
  | nil => simp [sendBits, nrziSymbols]
  | cons b bs ih =>
    simp only [sendBits]
    rw [ih (by simpa [sendBit, lineEncode_nrzi h] using h)]
    simp [sendBit, lineEncode_nrzi h, State.sendSymbol, State.emit, nrziSymbols]
    rw [List.getLast?_cons, Option.getD_some]

/-- The bit one frame is received as. -/
abbrev rxBitOf (c : Cfg) (pol : Bit) (f : Frame) : Bit :=
  if c.variant = .standard then detect c f else detect c f ^^ pol

/-- `DEC_POL` after one frame. -/
abbrev rxPolOf (c : Cfg) (pol : Bit) (f : Frame) : Bit :=
  if c.variant = .standard then pol else detect c f

/-- Consuming one frame, whole (R165, R166). -/
theorem receiveFrame_eq (f : Frame) (s : State) :
    receiveFrame f s = ⟨rxBitOf s.cfg s.decPol f, decide (s.rxCnt = 7#3),
      { s with
        decPol := rxPolOf s.cfg s.decPol f
        rxSr := shiftIn s.rxSr (rxBitOf s.cfg s.decPol f)
        rxCnt := s.rxCnt + 1#3
        trace := s.trace ++ if s.rxCnt = 7#3 then [.rxb (shiftIn s.rxSr (rxBitOf s.cfg s.decPol f))] else [] }⟩ := by
  have h0 : s.rxCnt = 7#3 → 0#3 = s.rxCnt + 1#3 := by intro h; rw [h]; rfl
  rcases variant_cases s.cfg with h | h <;> rcases eq_or_ne s.rxCnt 7#3 with h7 | h7
  · simp only [receiveFrame, lineDecode_standard h, rxBit_eighth h7, h7, rxBitOf, rxPolOf, h, State.emit]; simp
  · simp only [receiveFrame, lineDecode_standard h, rxBit_earlier h7, h7, rxBitOf, rxPolOf, h]; simp
  · simp only [receiveFrame, lineDecode_nrzi h, rxBitOf, rxPolOf, h]
    rw [rxBit_eighth (by exact h7)]; simp [h7, State.emit]
  · simp only [receiveFrame, lineDecode_nrzi h, rxBitOf, rxPolOf, h]
    rw [rxBit_earlier (by exact h7)]; simp [h7]

end Sys2Proof.Machine
end

