-- ==== Sys2Proof/Laws/Exec.lean ====
section
/-! SUPPORT. What every command and every step does, once: the effect of `exec`, and the cases of `step`. -/

namespace Sys2Proof.Machine

/-- The next state of a command of `n` words: `m` with its response appended and the pointer past the command. -/
abbrev answered (m : State) (st : Stat) (v : Half) (n : Nat) : State := (m.respond st v).advance n

theorem complete_eq (n : Nat) (v : Half) (s : State) : complete n v s = .next (answered s .ok v n) := rfl
theorem raise_eq (st : Stat) (v : Half) (n : Nat) (s : State) : raise st v n s = .next (answered s st v n) := rfl

theorem frameSize_pos {c : Cfg} (h : c.valid = true) : 0 < c.frameSize := by
  simp only [Cfg.valid, Bool.and_eq_true, decide_eq_true_eq] at h
  omega

/-- What a command leaves before its response: events but no response, the stream and configuration untouched; an
error leaves the state itself (R252); the boundary (R189) and the resting polarities (R21, R22) are kept. -/
structure CommandBody (s m : State) (st : Stat) : Prop where
  emits     : Emits (Quiet s.cfg) s m
  precise   : st ≠ .ok → m = s
  boundary  : s.AtBoundary → m.AtBoundary
  rest      : s.PolaritiesRest → m.PolaritiesRest

theorem CommandBody.same (s : State) (st : Stat) : CommandBody s s st := ⟨Emits.refl s, fun _ => rfl, id, id⟩

/-- An operation that keeps the synchronizer's registers and, under `STANDARD`, the polarities. -/
theorem CommandBody.of_emits {s m : State} (h : Emits (Quiet s.cfg) s m) (hb : m.fsBuf = s.fsBuf)
    (hs : m.fsState = s.fsState) (hr : m.receiving = s.receiving)
    (hp : s.cfg.variant = .standard → m.encPol = s.encPol ∧ m.decPol = s.decPol) : CommandBody s m .ok where
  emits := h
  precise := fun h => absurd rfl h
  boundary := by simp only [State.AtBoundary, hb, hs, hr, h.cfg]; exact id
  rest := by
    intro g hv
    rw [h.cfg] at hv
    rw [(hp hv).1, (hp hv).2]
    exact g hv

theorem lineEncode_body (b : Bit) (s : State) : CommandBody s (lineEncode b s).2 .ok := by
  obtain ⟨e, h⟩ := lineEncode_snd b s
  refine .of_emits (lineEncode_emits b s) (by rw [h]) (by rw [h]) (by rw [h]) fun hv => ?_
  rw [lineEncode_standard hv]
  exact ⟨rfl, rfl⟩

theorem lineDecode_body (b : Bit) (s : State) : CommandBody s (lineDecode b s).2 .ok := by
  obtain ⟨e, h⟩ := lineDecode_snd b s
  refine .of_emits (lineDecode_emits b s) (by rw [h]) (by rw [h]) (by rw [h]) fun hv => ?_
  rw [lineDecode_standard hv]
  exact ⟨rfl, rfl⟩

/-- Sending bits writes `ENC_POL` and the trace. -/
theorem sendBits_state (bs : List Bit) (v : Half) (s : State) :
    ∃ e tr, (sendBits bs v s).2 = { s with encPol := e, trace := tr } ∧
      (s.cfg.variant = .standard → e = s.encPol) := by
  induction bs generalizing v s with
  | nil => exact ⟨s.encPol, s.trace, rfl, fun _ => rfl⟩
  | cons b bs ih =>
    obtain ⟨e, he⟩ := lineEncode_snd b s
    have hcfg : (sendBit b s).2.cfg = s.cfg := (sendBit_emits b s).cfg
    obtain ⟨e', tr, h, hv⟩ := ih ((v <<< 1) ||| bitHalf (sendBit b s).1) (sendBit b s).2
    refine ⟨e', tr, ?_, fun hs => ?_⟩
    · rw [sendBits, h]
      simp [sendBit, State.sendSymbol, State.emit, he]
    · rw [hv (by rw [hcfg]; exact hs)]
      simp [sendBit, lineEncode_standard hs]

theorem sendBits_body (bs : List Bit) (v : Half) (s : State) : CommandBody s (sendBits bs v s).2 .ok := by
  obtain ⟨e, tr, h, hv⟩ := sendBits_state bs v s
  refine .of_emits (sendBits_emits bs v s) (by rw [h]) (by rw [h]) (by rw [h]) fun hs => ?_
  rw [h]
  exact ⟨hv hs, rfl⟩

theorem receiveFrame_decPol_standard {s : State} (h : s.cfg.variant = .standard) (f : Frame) :
    (receiveFrame f s).next.decPol = s.decPol := by
  simp only [receiveFrame, lineDecode_standard h, rxBit]
  split <;> rfl

theorem receiveFrame_body (f : Frame) (s : State) : CommandBody s (receiveFrame f s).next .ok := by
  obtain ⟨d, sr, cnt, h⟩ := receiveFrame_next f s
  refine .of_emits (receiveFrame_emits f s) (by rw [h]) (by rw [h]) (by rw [h]) fun hv => ?_
  exact ⟨by rw [h], receiveFrame_decPol_standard hv f⟩

/-- A delivery that leaves `DEC_POL` alone under `STANDARD`. -/
def Deliver.Rests (d : Deliver) : Prop :=
  ∀ f s, s.cfg.variant = .standard → (d f s).1.decPol = s.decPol

theorem emitFrames_decPol {d : Deliver} (hd : d.Ok) (hr : d.Rests) (n : Nat) (r : Drained)
    (hv : r.state.cfg.variant = .standard) : (emitFrames d n r).state.decPol = r.state.decPol := by
  induction n generalizing r with
  | zero => rfl
  | succ n ih =>
    by_cases h : r.state.cfg.frameSize ≤ r.state.fsBuf.length
    · have h1 := (drainOne_spec hd h).1
      rw [emitFrames_pass h, ih (drainOne d r) (by rw [h1.cfg]; exact hv)]
      simp [drainOne, hr _ (State.dropFrame r.state.cfg.frameSize r.state.assertReceiving) (by simpa using hv)]
    · rw [emitFrames_stop (by omega)]

theorem syncBlock_body {d : Deliver} (hd : d.Ok) (hr : d.Rests) (xs : List Sample) (s : State)
    (hpos : 0 < s.cfg.frameSize) : CommandBody s (syncBlock d xs s).state .ok := by
  obtain ⟨h1, h2, h3, h4, h5⟩ := syncBlock_spec hd xs s hpos
  refine ⟨h1, fun h => absurd rfl h, ?_, ?_⟩
  · rintro ⟨g1, g2, -⟩
    exact ⟨h3 g1, h4 g2, by rw [h1.cfg]; exact h2⟩
  · intro g hv
    rw [h1.cfg] at hv
    have hdp : (syncBlock d xs s).state.decPol = s.decPol := by
      simp only [syncBlock]
      split
      · have := emitFrames_decPol hd hr (s.pushBlock xs).strip.fsBuf.length
          ⟨{ (s.pushBlock xs).strip with fsState := .emitting }, 0, 0⟩ hv
        simpa using this
      · rfl
    rw [h5, hdp]
    exact g hv

theorem deliverAligned_rests : Deliver.Rests deliverAligned := fun _ _ _ => rfl
theorem deliverReceived_rests : Deliver.Rests deliverReceived := fun f _ h => receiveFrame_decPol_standard h f

theorem resetData_body (s : State) (hpos : 0 < s.cfg.frameSize) : CommandBody s s.resetData .ok :=
  ⟨⟨rfl, rfl, rfl, rfl, [], by simp, by simp⟩, fun h => absurd rfl h, fun _ => ⟨rfl, rfl, hpos⟩, fun _ _ => ⟨rfl, rfl⟩⟩

/-- WHAT EVERY COMMAND DOES: it answers a next state, which is its body with one response appended and the pointer
past the whole command (R17, R62, R100, R252). -/
theorem exec_effect (i : Instr) (s : State) (hpos : 0 < s.cfg.frameSize) :
    ∃ m st v, exec i s = .next (answered m st v i.length) ∧ CommandBody s m st := by
  cases i with
  | synth sym =>
    refine ⟨_, _, _, rfl, .of_emits (sendSymbol_emits sym s) rfl rfl rfl fun _ => ⟨rfl, rfl⟩⟩
  | lenc b => exact ⟨_, _, _, rfl, lineEncode_body b s⟩
  | txbit b =>
    refine ⟨_, _, _, rfl, ?_⟩
    obtain ⟨e, h⟩ := lineEncode_snd b s
    refine .of_emits (sendBit_emits b s) (by simp [sendBit, h]) (by simp [sendBit, h]) (by simp [sendBit, h]) fun hv => ?_
    simp [sendBit, lineEncode_standard hv]
  | txbyte v => exact ⟨_, _, _, rfl, sendBits_body _ _ s⟩
  | detect pay =>
    simp only [exec, execDetect]
    split
    · exact ⟨_, _, _, rfl, .same _ _⟩
    · exact ⟨_, _, _, rfl, .same _ _⟩
  | ldec p => exact ⟨_, _, _, rfl, lineDecode_body p s⟩
  | rxframe pay =>
    simp only [exec, execRxframe]
    split
    · exact ⟨_, _, _, rfl, receiveFrame_body _ s⟩
    · exact ⟨_, _, _, rfl, .same _ _⟩
  | spush pay =>
    simp only [exec, execSpush]
    split
    · split
      · exact ⟨_, _, _, rfl, syncBlock_body deliverAligned_ok deliverAligned_rests _ s hpos⟩
      · exact ⟨_, _, _, rfl, .same _ _⟩
    · exact ⟨_, _, _, rfl, .same _ _⟩
  | rxpush pay =>
    simp only [exec, execRxpush]
    split
    · split
      · exact ⟨_, _, _, rfl, syncBlock_body deliverReceived_ok deliverReceived_rests _ s hpos⟩
      · exact ⟨_, _, _, rfl, .same _ _⟩
    · exact ⟨_, _, _, rfl, .same _ _⟩
  | henc n => exact ⟨_, _, _, rfl, .same _ _⟩
  | hdec c =>
    simp only [exec, execHdec]
    split
    · exact ⟨_, _, _, rfl, .same _ _⟩
    · exact ⟨_, _, _, rfl, .same _ _⟩
  | rdreg idx =>
    simp only [exec, execRdreg]
    split
    · exact ⟨_, _, _, rfl, .same _ _⟩
    · exact ⟨_, _, _, rfl, .same _ _⟩
  | sreset => exact ⟨_, _, _, rfl, resetData_body s hpos⟩

/-- Running the command whose words stand at `CMDPTR` (R100). -/
theorem step_of_fetch {s : State} {i : Instr} {rest : List Word} (hv : s.cfg.valid = true)
    (hf : fetch s = .ok (i, rest)) : step s = exec i s := by
  simp [step, hv, hf]

/-- THE CASES OF A STEP. With a next state, the configuration is valid, and either nothing changes because words are
missing (R102), or a command is run, or an illegal command word is answered (R95). -/
theorem step_cases {s t : State} (h : step s = .next t) :
    s.cfg.valid = true ∧
      (t = s ∨
        (∃ i rest, fetch s = .ok (i, rest) ∧ exec i s = .next t) ∨
        (∃ code, fetch s = .error (.illegalOpcode code) ∧ t = answered s .illegalOpcode (code.setWidth 16) 1) ∨
        (∃ n, fetch s = .error (.illegalField n) ∧ t = answered s .illegalField 0#16 (1 + n))) := by
  unfold step at h
  by_cases hv : s.cfg.valid = true
  · refine ⟨hv, ?_⟩
    rw [if_pos hv] at h
    rcases hf : fetch s with (_ | _ | code | n) | ⟨i, rest⟩
    · simp only [hf, rejected, Host.Outcome.next.injEq] at h
      exact .inl h.symm
    · simp only [hf, rejected] at h
      by_cases hc : s.closed = true
      · rw [if_pos hc] at h; cases h
      · rw [if_neg hc, Host.Outcome.next.injEq] at h
        exact .inl h.symm
    · simp only [hf, rejected, raise_eq, Host.Outcome.next.injEq] at h
      exact .inr (.inr (.inl ⟨code, rfl, h.symm⟩))
    · simp only [hf, rejected, raise_eq, Host.Outcome.next.injEq] at h
      exact .inr (.inr (.inr ⟨n, rfl, h.symm⟩))
    · simp only [hf] at h
      exact .inr (.inl ⟨i, rest, rfl, h⟩)
  · rw [if_neg hv] at h; cases h

/-- A step that changes anything: a body, a response and an advance past words the stream holds. -/
theorem step_effect {s t : State} (h : step s = .next t) :
    t = s ∨ ∃ m st v n, t = answered m st v n ∧ CommandBody s m st ∧
      ∃ w tail, s.cmd.drop s.cmdptr = w :: tail ∧ n = 1 + paylen s.cfg w ∧ paylen s.cfg w ≤ tail.length := by
  obtain ⟨hv, rfl | ⟨i, rest, hf, he⟩ | ⟨code, hf, rfl⟩ | ⟨n, hf, rfl⟩⟩ := step_cases h
  · exact .inl rfl
  · obtain ⟨m, st, v, hm, hb⟩ := exec_effect i s (frameSize_pos hv)
    obtain ⟨w, tail, hw, hl, hlen⟩ := decode_ok_length hf
    rw [hm, Host.Outcome.next.injEq] at he
    exact .inr ⟨m, st, v, _, he.symm, hb, w, tail, hw, hlen, hl⟩
  · obtain ⟨w, tail, hw, -, -, hp⟩ := decode_illegalOpcode hf
    exact .inr ⟨s, _, _, _, rfl, .same _ _, w, tail, hw, by rw [hp], by omega⟩
  · obtain ⟨w, tail, hw, rfl, hl⟩ := decode_illegalField hf
    exact .inr ⟨s, _, _, _, rfl, .same _ _, w, tail, hw, rfl, hl⟩

/-! ### The block operations and lists of commands -/

theorem admits_of {s : State} {n : Nat} (h1 : 1 ≤ n) (h2 : s.fsBuf.length + n ≤ s.cfg.bufCap) : s.admits n = true := by
  simp [State.admits, h1, h2]

theorem admits_iff {s : State} {n : Nat} : s.admits n = true ↔ 1 ≤ n ∧ s.fsBuf.length + n ≤ s.cfg.bufCap := by
  simp [State.admits]

/-- An admitted clean `SPUSH` (R187). -/
theorem exec_spush_ok {pay : List Word} {s : State} (h : s.admits pay.length = true) (hc : payloadClean pay = true) :
  exec (.spush pay) s = complete (1 + pay.length) (BitVec.ofNat 16 (syncBlock deliverAligned (samples pay) s).frames) (syncBlock deliverAligned (samples pay) s).state := by
    simp [exec, execSpush, h, hc]

/-- An admitted clean `RXPUSH` (R188). -/
theorem exec_rxpush_ok {pay : List Word} {s : State} (h : s.admits pay.length = true) (hc : payloadClean pay = true) :
  exec (.rxpush pay) s = complete (1 + pay.length) (packVal (syncBlock deliverReceived (samples pay) s).bytes (syncBlock deliverReceived (samples pay) s).frames) (syncBlock deliverReceived (samples pay) s).state := by
    simp [exec, execRxpush, h, hc]

/-- An `RXFRAME` of a frame (R166). -/
theorem exec_rxframeOf (f : Frame) (s : State) : exec (rxframeOf f) s =
    complete (1 + f.length) (packVal (receiveFrame f s).byte.toNat (receiveFrame f s).bit.toNat) (receiveFrame f s).next := by
  simp [rxframeOf, exec, execRxframe, payloadClean_payloadWord, samples_payloadWord]

/-- Commands one list after another. -/
theorem execAll_append {a b : List Instr} {s t : State} (h : execAll a s = .next t) :
    execAll (a ++ b) s = execAll b t := by
  induction a generalizing s with
  | nil => cases h; rfl
  | cons i a ih =>
    simp only [execAll, List.cons_append] at h ⊢
    cases hx : exec i s with
    | next m => rw [hx] at h; exact ih h
    | fault f => rw [hx] at h; cases h
    | refused r => rw [hx] at h; cases h

end Sys2Proof.Machine
end

