-- ==== Sys2Proof/Laws/PerInstr.lean ====
section
/-! SUPPORT. Laws made per instruction, of the instruction as syntax. -/

namespace Sys2Proof.Laws.EncodesToItsRow

/-- The command word of an instruction hits its own row of the opcode table and no other (R92). -/
def Statement (i : Instr) : Prop :=
  ∀ row ∈ opcodeTable, row.hits (commandWord i.op.code i.imm) = true ↔ row.op = i.op

/-- An operation's code is its own. -/
theorem code_injective {a b : Op} (h : a.code = b.code) : a = b := by
  have := ofCode_code a
  rw [h, ofCode_code, Option.some.injEq] at this
  exact this.symm

theorem of_instr (i : Instr) : Statement i := by
  intro row hrow
  rw [row_hits_iff hrow, opc_commandWord, rsv_commandWord, imm_commandWord]
  constructor
  · exact fun h => (code_injective h.1).symm
  · rintro h
    rw [h]
    exact ⟨rfl, rfl, imm_and_immZero i⟩

theorem synth (s : Bit) : Statement (.synth s) := of_instr _
theorem lenc (b : Bit) : Statement (.lenc b) := of_instr _
theorem txbit (b : Bit) : Statement (.txbit b) := of_instr _
theorem txbyte (v : Byte) : Statement (.txbyte v) := of_instr _
theorem detect (pay : List Word) : Statement (.detect pay) := of_instr _
theorem ldec (p : Bit) : Statement (.ldec p) := of_instr _
theorem rxframe (pay : List Word) : Statement (.rxframe pay) := of_instr _
theorem spush (pay : List Word) : Statement (.spush pay) := of_instr _
theorem rxpush (pay : List Word) : Statement (.rxpush pay) := of_instr _
theorem henc (n : Nibble) : Statement (.henc n) := of_instr _
theorem hdec (c : Byte) : Statement (.hdec c) := of_instr _
theorem rdreg (idx : Byte) : Statement (.rdreg idx) := of_instr _
theorem sreset : Statement .sreset := of_instr _

end Sys2Proof.Laws.EncodesToItsRow
end

