-- ==== Sys2Proof/Laws/Streams.lean ====
section
/-! SUPPORT. Sample streams through the synchronizer: windows, and one pushed block; symbols through the line coder. -/

namespace Sys2Proof.Machine

/-- A whole frame at the front is the first window. -/
theorem windows_step {n : Nat} (hn : 0 < n) (f l : List Sample) (hf : f.length = n) : windows n (f ++ l) = f :: windows n l ∧ leftover n (f ++ l) = leftover n l := by
  have h1 : (f ++ l).length / n = l.length / n + 1 := by
    rw [List.length_append, hf, Nat.add_div_left _ hn]
  constructor
  · simp only [windows, h1, List.range_succ_eq_map, List.map_cons, List.map_map]
    congr 1
    · simp [hf]
    · apply List.map_congr_left
      intro k _
      simp only [Function.comp]
      rw [List.drop_append, List.drop_eq_nil_of_le (by rw [hf, Nat.succ_mul]; exact Nat.le_add_left _ _)]
      simp [hf, Nat.succ_mul]
  · simp only [leftover, h1]
    rw [List.drop_append, List.drop_eq_nil_of_le (by rw [hf, Nat.succ_mul]; exact Nat.le_add_left _ _)]
    simp [hf, Nat.succ_mul]

/-- Less than a frame has no window. -/
theorem windows_short {n : Nat} (l : List Sample) (h : l.length < n) : windows n l = [] ∧ leftover n l = l := by
  have : l.length / n = 0 := Nat.div_eq_of_lt h
  simp [windows, leftover, this]

/-- Windows of a concatenation: those of the front, then those of what it leaves and the back. -/
theorem windows_append {n : Nat} (hn : 0 < n) (l m : List Sample) :
    windows n (l ++ m) = windows n l ++ windows n (leftover n l ++ m) ∧ leftover n (l ++ m) = leftover n (leftover n l ++ m) := by
  induction hk : l.length using Nat.strong_induction_on generalizing l with
  | _ k ih =>
    rcases lt_or_ge l.length n with h | h
    · obtain ⟨h1, h2⟩ := windows_short l h
      rw [h1, h2]; simp
    · obtain ⟨h1, h2⟩ := windows_step hn (l.take n) (l.drop n) (by simp [h])
      obtain ⟨h3, h4⟩ := windows_step hn (l.take n) (l.drop n ++ m) (by simp [h])
      rw [List.take_append_drop] at h1 h2
      rw [← List.append_assoc, List.take_append_drop] at h3 h4
      obtain ⟨h5, h6⟩ := ih (l.drop n).length (by simp; omega) (l.drop n) rfl
      rw [h3, h5, h1, h4, h6, h2]; simp

/-- ONE ADMITTED BLOCK of `SPUSH`: it leaves the windows and the remainder of the stripped buffer (R182 to R187). -/
theorem spush_one (s : State) (hs : s.Ready) (b : List Sample) (h : s.admits b.length = true) :
    ∃ t : State, exec (spushOf b) s = .next t ∧ t.cfg = s.cfg ∧ t.AtBoundary ∧
      alnPort t.trace = alnPort s.trace ++ windows s.cfg.frameSize (stripZeros (s.fsBuf ++ b)) ∧
      t.fsBuf = leftover s.cfg.frameSize (stripZeros (s.fsBuf ++ b)) := by
  obtain ⟨hv, ⟨hb1, hb2, hb3⟩⟩ := hs
  have hpos := frameSize_pos hv
  have hfit := (admits_iff.mp h).2
  rw [spushOf, exec_spush_ok (by simpa using h) (payloadClean_payloadWord _), samples_payloadWord]
  set v := stripZeros (s.fsBuf ++ b) with hvd
  have hle : v.length ≤ 2 * s.cfg.frameSize := by
    refine (stripZeros_length_le _).trans ?_
    simpa [Cfg.bufCap] using hfit
  set n := s.cfg.frameSize with hn
  rcases lt_or_ge v.length n with hlt | hge
  · rw [syncBlock_below hlt]
    obtain ⟨w1, w2⟩ := windows_short v hlt
    refine ⟨_, rfl, rfl, ⟨hb1, hb2, hlt⟩, ?_, ?_⟩ <;> simp [w1, w2, alnPort, Event.alnFrame]
    rfl
  rcases lt_or_ge v.length (2 * n) with hlt2 | hge2
  · rw [syncBlock_one deliverAligned_ok hb2 hvd.symm hge hlt2]
    obtain ⟨w1, w2⟩ := windows_step hpos (v.take n) (v.drop n) (by simp [hge])
    obtain ⟨w3, w4⟩ := windows_short (n := n) (v.drop n) (by simp; omega)
    rw [List.take_append_drop] at w1 w2
    refine ⟨_, rfl, rfl, ⟨rfl, rfl, ?_⟩, ?_, ?_⟩
    · simp [deliverAligned]; omega
    · rw [w1, w3]; simp [alnPort, Event.alnFrame, deliverAligned, entered, left, List.filterMap_cons]; rfl
    · rw [w2, w4]; rfl
  · rw [syncBlock_two deliverAligned_ok hb2 hvd.symm hpos (by omega)]
    obtain ⟨w1, w2⟩ := windows_step hpos (v.take n) (v.drop n) (by simp [hge])
    obtain ⟨w3, w4⟩ := windows_step hpos (v.drop n) [] (by simp; omega)
    obtain ⟨w5, w6⟩ := windows_short (n := n) [] hpos
    rw [List.append_nil] at w3 w4
    rw [List.take_append_drop] at w1 w2
    refine ⟨_, rfl, rfl, ⟨rfl, rfl, ?_⟩, ?_, ?_⟩
    · simpa [deliverAligned] using hpos
    · rw [w1, w3, w5]; simp [alnPort, Event.alnFrame, deliverAligned, entered, left, List.filterMap_cons]; rfl
    · rw [w2, w4, w6]; rfl

/-- What the receive path leaves: `DEC_POL`, `RX_SR`, `RX_CNT` and the `RXB` port. -/
structure RxPath where
  decPol : Bit
  rxSr   : Byte
  rxCnt  : BitVec 3
  bytes  : List Byte

/-- The receive path of a state. -/
def State.rxPath (s : State) : RxPath := ⟨s.decPol, s.rxSr, s.rxCnt, rxbPort s.trace⟩

/-- The receive path after one more frame (R165, R166). -/
def RxPath.frame (c : Cfg) (r : RxPath) (f : Frame) : RxPath :=
  ⟨rxPolOf c r.decPol f, shiftIn r.rxSr (rxBitOf c r.decPol f), r.rxCnt + 1#3,
    r.bytes ++ if r.rxCnt = 7#3 then [shiftIn r.rxSr (rxBitOf c r.decPol f)] else []⟩

/-- Consuming a frame is that step of the receive path. -/
theorem receiveFrame_rxPath (f : Frame) (s : State) : (receiveFrame f s).next.rxPath = s.rxPath.frame s.cfg f := by
  rw [receiveFrame_eq]
  by_cases h : s.rxCnt = 7#3 <;> simp [State.rxPath, RxPath.frame, rxbPort, Event.rxbByte, h]

/-- Events of the synchronizer and responses leave the receive path. -/
@[simp] theorem entered_rxPath (s : State) (rest : List Sample) : (entered s rest).rxPath = s.rxPath := by
  simp [State.rxPath, rxbPort, Event.rxbByte]
@[simp] theorem left_rxPath (s : State) : (left s).rxPath = s.rxPath := by
  simp [State.rxPath, rxbPort, Event.rxbByte]
@[simp] theorem answered_rxPath (s : State) (st : Stat) (v : Half) (n : Nat) : (answered s st v n).rxPath = s.rxPath := by
  simp [State.rxPath, rxbPort, Event.rxbByte]

/-- ONE ADMITTED BLOCK of `RXPUSH`: the receive path takes the windows of the stripped buffer, and the remainder is
left (R188). -/
theorem rxpush_one (s : State) (hs : s.Ready) (b : List Sample) (h : s.admits b.length = true) :
    ∃ t : State, exec (rxpushOf b) s = .next t ∧ t.cfg = s.cfg ∧ t.AtBoundary ∧
      t.rxPath = (windows s.cfg.frameSize (stripZeros (s.fsBuf ++ b))).foldl (RxPath.frame s.cfg) s.rxPath ∧
      t.fsBuf = leftover s.cfg.frameSize (stripZeros (s.fsBuf ++ b)) := by
  obtain ⟨hv, ⟨hb1, hb2, hb3⟩⟩ := hs
  have hpos := frameSize_pos hv
  have hfit := (admits_iff.mp h).2
  rw [rxpushOf, exec_rxpush_ok (by simpa using h) (payloadClean_payloadWord _), samples_payloadWord]
  set v := stripZeros (s.fsBuf ++ b) with hvd
  have hle : v.length ≤ 2 * s.cfg.frameSize := by
    refine (stripZeros_length_le _).trans ?_
    simpa [Cfg.bufCap] using hfit
  set n := s.cfg.frameSize with hn
  rcases lt_or_ge v.length n with hlt | hge
  · rw [syncBlock_below hlt]
    obtain ⟨w1, w2⟩ := windows_short v hlt
    refine ⟨_, rfl, rfl, ⟨hb1, hb2, hlt⟩, ?_, ?_⟩
    · rw [w1]; exact answered_rxPath _ _ _ _
    · rw [w2]; rfl
  rcases lt_or_ge v.length (2 * n) with hlt2 | hge2
  · rw [syncBlock_one deliverReceived_ok hb2 hvd.symm hge hlt2]
    obtain ⟨w1, w2⟩ := windows_step hpos (v.take n) (v.drop n) (by simp [hge])
    obtain ⟨w3, w4⟩ := windows_short (n := n) (v.drop n) (by simp; omega)
    rw [List.take_append_drop] at w1 w2
    refine ⟨_, rfl, ?_, ⟨rfl, rfl, ?_⟩, ?_, ?_⟩
    · simp [deliverReceived, receiveFrame_eq]
    · simp [deliverReceived, receiveFrame_eq]; omega
    · rw [w1, w3, answered_rxPath, left_rxPath, deliverReceived, receiveFrame_rxPath, entered_rxPath]; rfl
    · rw [w2, w4]; simp [deliverReceived, receiveFrame_eq]; rfl
  · rw [syncBlock_two deliverReceived_ok hb2 hvd.symm hpos (by omega)]
    obtain ⟨w1, w2⟩ := windows_step hpos (v.take n) (v.drop n) (by simp [hge])
    obtain ⟨w3, w4⟩ := windows_step hpos (v.drop n) [] (by simp; omega)
    obtain ⟨w5, w6⟩ := windows_short (n := n) [] hpos
    rw [List.append_nil] at w3 w4
    rw [List.take_append_drop] at w1 w2
    refine ⟨_, rfl, ?_, ⟨rfl, rfl, ?_⟩, ?_, ?_⟩
    · simp [deliverReceived, receiveFrame_eq]
    · simpa [deliverReceived, receiveFrame_eq] using hpos
    · rw [w1, w3, w5, answered_rxPath, left_rxPath, deliverReceived, receiveFrame_rxPath]
      have : ({ (deliverReceived (v.take n) (entered s (v.drop n))).1 with fsBuf := [] } : State).rxPath =
          s.rxPath.frame s.cfg (v.take n) := by
        rw [show ({ (deliverReceived (v.take n) (entered s (v.drop n))).1 with fsBuf := [] } : State).rxPath =
          (deliverReceived (v.take n) (entered s (v.drop n))).1.rxPath from rfl, deliverReceived, receiveFrame_rxPath, entered_rxPath]
      rw [this]
      simp [deliverReceived, receiveFrame_eq, hn]
    · rw [w2, w4, w6]; simp [deliverReceived, receiveFrame_eq]

/-- The decoder's bits of the encoder's symbols (R145). -/
theorem zip_nrziSymbols (p : Bit) (bits : List Bit) :
    List.zipWith (· ^^ ·) (nrziSymbols p bits) (p :: nrziSymbols p bits) = bits := by
  induction bits generalizing p with
  | nil => rfl
  | cons b bits ih =>
    simp only [nrziSymbols, List.zipWith_cons_cons, ih]
    cases b <;> cases p <;> rfl

end Sys2Proof.Machine
end

