-- ==== Sys2Proof/Laws/Tone.lean ====
section
/-! SUPPORT. The integer algorithm of the tone ROM decides exactly the real roundings of spec/40_tone_synth.md R120 and R121. -/

namespace Sys2Proof.Machine

/-- Below the axis, or on it to the left: the half turns completed are odd. -/
theorem lower_side_iff_odd (W : Nat) (x : ℝ) (h1 : W * Real.pi ≤ x) (h2 : x < (W + 1) * Real.pi) :
    (Real.sin x < 0 ∨ (Real.sin x = 0 ∧ Real.cos x < 0)) ↔ W % 2 = 1 := by
  obtain ⟨y, rfl⟩ : ∃ y, x = y + W * Real.pi := ⟨x - W * Real.pi, by ring⟩
  have hy0 : 0 ≤ y := by linarith
  have hy1 : y < Real.pi := by linarith
  have hs : 0 ≤ Real.sin y := Real.sin_nonneg_of_nonneg_of_le_pi hy0 hy1.le
  have hc : Real.sin y = 0 → 0 < Real.cos y := by
    intro h
    rcases hy0.eq_or_lt with rfl | hpos
    · simp
    · exact absurd h (Real.sin_pos_of_pos_of_lt_pi hpos hy1).ne'
  rw [Real.sin_add_nat_mul_pi, Real.cos_add_nat_mul_pi]
  rcases Nat.even_or_odd W with hW | hW
  · rw [hW.neg_one_pow, Nat.even_iff.mp hW]
    simp only [one_mul, zero_ne_one, iff_false, not_or, not_lt, not_and]
    exact ⟨hs, fun h => (hc h).le⟩
  · rw [hW.neg_one_pow, Nat.odd_iff.mp hW]
    simp only [neg_mul, one_mul, Left.neg_neg_iff, neg_eq_zero, iff_true]
    rcases hs.lt_or_eq with h | h
    · exact .inl h
    · exact .inr ⟨h.symm, hc h.symm⟩

/-- A Boolean test against a decided proposition. -/
theorem beq_decide_iff {p : Bool} {q : Prop} [Decidable q] : (p == decide q) = true ↔ (p = true ↔ q) := by
  by_cases h : q <;> cases p <;> simp [h]

/-- Positive scaling keeps sign and zero. -/
theorem neg_zero_iff_of_scaled {x p b s : ℝ} (hp : 0 < p) (hb : 0 < b) (h : x * p = b * s) :
    (x < 0 ↔ s < 0) ∧ (x = 0 ↔ s = 0) := by
  have hs : s = x * p / b := by field_simp; linarith
  subst hs
  refine ⟨⟨fun hx => div_neg_of_neg_of_pos (mul_neg_of_neg_of_pos hx hp) hb, fun hx => ?_⟩, ?_⟩
  · by_contra hc
    exact absurd hx (not_lt.mpr (div_nonneg (mul_nonneg (not_lt.mp hc) hp.le) hb.le))
  · simp [hp.ne', hb.ne']

/-- The rotations of `halfTurns` count the half turns of a real angle. -/
theorem halfTurns_spec {a b e : Int} {φ : ℝ} (hb : 0 < b) (hφ0 : 0 < φ) (hφ1 : φ < Real.pi)
    (hcos : (b : ℝ) * Real.cos φ = a) (he : e = b * b - a * a) (j k : Nat) (u v : Int) (w : Nat)
    (hu : (u : ℝ) = b ^ k * Real.cos (k * φ)) (hv : (v : ℝ) * (b * Real.sin φ) = b ^ k * Real.sin (k * φ))
    (hw1 : w * Real.pi ≤ k * φ) (hw2 : k * φ < (w + 1) * Real.pi) :
    (halfTurns a e j u v w : ℝ) * Real.pi ≤ (k + j : ℕ) * φ ∧
      ((k + j : ℕ) : ℝ) * φ < (halfTurns a e j u v w + 1) * Real.pi := by
  induction j generalizing k u v w with
  | zero => simpa [halfTurns] using ⟨hw1, hw2⟩
  | succ j ih =>
    have hbR : (0 : ℝ) < b := by exact_mod_cast hb
    have hsin : 0 < Real.sin φ := Real.sin_pos_of_pos_of_lt_pi hφ0 hφ1
    have hang : ((k + 1 : ℕ) : ℝ) * φ = k * φ + φ := by push_cast; ring
    have heR : (e : ℝ) = (b * Real.sin φ) * (b * Real.sin φ) := by
      have := Real.sin_sq_add_cos_sq φ
      rw [he]; push_cast; rw [← hcos]; nlinarith
    have hu' : ((a * u - e * v : Int) : ℝ) = b ^ (k + 1) * Real.cos ((k + 1 : ℕ) * φ) := by
      rw [hang, Real.cos_add]; push_cast; rw [heR, ← hcos, hu]
      linear_combination (-(b * Real.sin φ)) * hv
    have hv' : ((a * v + u : Int) : ℝ) * (b * Real.sin φ) = b ^ (k + 1) * Real.sin ((k + 1 : ℕ) * φ) := by
      rw [hang, Real.sin_add]; push_cast; rw [← hcos, hu]
      linear_combination (b * Real.cos φ) * hv
    have hbk : (0 : ℝ) < b ^ (k + 1) := pow_pos hbR _
    have hvs := neg_zero_iff_of_scaled (mul_pos hbR hsin) hbk hv'
    have hus := (neg_zero_iff_of_scaled one_pos hbk ((mul_one _).trans hu')).1
    simp only [Int.cast_lt_zero, Int.cast_eq_zero] at hvs hus
    have hstep : ∀ W : Nat, W * Real.pi ≤ (k + 1 : ℕ) * φ → ((k + 1 : ℕ) : ℝ) * φ < (W + 1) * Real.pi →
        ((a * v + u < 0 ∨ (a * v + u = 0 ∧ a * u - e * v < 0)) ↔ W % 2 = 1) := by
      intro W h1 h2
      rw [hvs.1, hvs.2, hus]
      exact lower_side_iff_odd W _ h1 h2
    have hkey : ∃ W, (W = if (decide (a * v + u < 0) || (decide (a * v + u = 0) && decide (a * u - e * v < 0))) ==
        decide (w % 2 = 1) then w else w + 1) ∧ W * Real.pi ≤ (k + 1 : ℕ) * φ ∧
        ((k + 1 : ℕ) : ℝ) * φ < (W + 1) * Real.pi := by
      by_cases hlt : ((k + 1 : ℕ) : ℝ) * φ < (w + 1) * Real.pi
      · have h1 : w * Real.pi ≤ (k + 1 : ℕ) * φ := by rw [hang]; linarith
        refine ⟨w, ?_, h1, hlt⟩
        have := hstep w h1 hlt
        rw [if_pos]
        rwa [beq_decide_iff, Bool.or_eq_true, Bool.and_eq_true, decide_eq_true_eq, decide_eq_true_eq, decide_eq_true_eq]
      · have h1 : ((w + 1 : ℕ) : ℝ) * Real.pi ≤ (k + 1 : ℕ) * φ := by push_cast at hlt ⊢; linarith
        have h2 : ((k + 1 : ℕ) : ℝ) * φ < ((w + 1 : ℕ) + 1) * Real.pi := by push_cast at hang ⊢; rw [hang]; linarith
        refine ⟨w + 1, ?_, h1, h2⟩
        have := hstep (w + 1) h1 h2
        rw [if_neg]
        rw [beq_decide_iff, Bool.or_eq_true, Bool.and_eq_true, decide_eq_true_eq, decide_eq_true_eq, decide_eq_true_eq,
          this]
        omega
    obtain ⟨W, hW, h1, h2⟩ := hkey
    have := ih (k + 1) _ _ W hu' hv' h1 h2
    rw [show k + 1 + j = k + (j + 1) by ring] at this
    subst hW
    simpa only [halfTurns] using this

/-- The half-turn count decides a comparison of a fraction with a cosine. -/
theorem le_halfTurns_iff {a b : Int} (ha : 0 < a) (hab : a < b) {h d : Nat} (hd : 0 < d) (hh : h ≤ d) :
    h ≤ halfTurns a (b * b - a * a) d 1 0 0 ↔ (a : ℝ) / b ≤ Real.cos (Real.pi * h / d) := by
  have hbR : (0 : ℝ) < b := by exact_mod_cast ha.trans hab
  have haR : (0 : ℝ) < a := by exact_mod_cast ha
  have hq1 : (a : ℝ) / b < 1 := (div_lt_one hbR).mpr (by exact_mod_cast hab)
  have hq0 : (0 : ℝ) < a / b := div_pos haR hbR
  set φ := Real.arccos ((a : ℝ) / b) with hφ
  have hcosφ : Real.cos φ = a / b := Real.cos_arccos (by linarith) hq1.le
  have hφ0 : 0 < φ := Real.arccos_pos.mpr hq1
  have hφ1 : φ < Real.pi := by
    have := Real.arccos_lt_pi_div_two.mpr hq0
    have := Real.pi_pos
    linarith
  have hspec := halfTurns_spec (e := b * b - a * a) (ha.trans hab) hφ0 hφ1 (by rw [hcosφ]; field_simp) rfl d 0 1 0 0
    (by simp) (by simp) (by simp) (by simp [Real.pi_pos])
  rw [zero_add] at hspec
  have hdR : (0 : ℝ) < d := by exact_mod_cast hd
  have hx0 : 0 ≤ Real.pi * h / d := by positivity
  have hx1 : Real.pi * h / d ≤ Real.pi := by
    rw [div_le_iff₀ hdR]; exact mul_le_mul_of_nonneg_left (by exact_mod_cast hh) Real.pi_pos.le
  rw [← hcosφ, Real.strictAntiOn_cos.le_iff_ge ⟨hφ0.le, hφ1.le⟩ ⟨hx0, hx1⟩, div_le_iff₀ hdR]
  generalize halfTurns a (b * b - a * a) d 1 0 0 = W at hspec ⊢
  have hpi := Real.pi_pos
  constructor
  · intro hle
    have : (h : ℝ) ≤ W := by exact_mod_cast hle
    nlinarith [hspec.1]
  · intro hle
    have : (h : ℝ) < W + 1 := by nlinarith [hspec.2]
    exact Nat.lt_succ_iff.mp (by exact_mod_cast this)

/-- `reaches` decides whether the product is at least `m - 1/2`. -/
theorem reaches_iff {amp h d m : Nat} (hm : 1 ≤ m) (hd : 0 < d) (hh : h ≤ d) :
    reaches amp h d m = true ↔ (m : ℝ) ≤ amp * Real.cos (Real.pi * h / d) + 1 / 2 := by
  have hcos := Real.cos_le_one (Real.pi * h / d)
  unfold reaches
  rw [Bool.and_eq_true, decide_eq_true_eq, decide_eq_true_eq]
  by_cases hma : m ≤ amp
  · have hampR : (0 : ℝ) < amp := by exact_mod_cast (by omega : 0 < amp)
    rw [le_halfTurns_iff (by omega) (by omega) hd hh]
    simp only [hma, true_and]
    push_cast
    rw [div_le_iff₀ (by positivity)]
    constructor <;> intro h <;> linarith
  · simp only [hma, false_and, false_iff, not_le]
    have : (amp : ℝ) + 1 ≤ m := by exact_mod_cast (by omega : amp + 1 ≤ m)
    have : (0 : ℝ) ≤ amp := by positivity
    nlinarith

/-- The binary search finds the greatest number the test admits. -/
theorem greatest_eq {test : Nat → Bool} {F : Nat} (ht : ∀ m, 1 ≤ m → (test m = true ↔ m ≤ F)) (k m : Nat)
    (h1 : m ≤ F) (h2 : F < m + 2 ^ k) : greatest test k m = F := by
  induction k generalizing m with
  | zero => simp [greatest] at *; omega
  | succ k ih =>
    have hp : 1 ≤ m + 2 ^ k := le_add_left (Nat.one_le_two_pow)
    rw [pow_succ] at h2
    unfold greatest
    by_cases h : m + 2 ^ k ≤ F
    · rw [if_pos ((ht _ hp).mpr h)]
      exact ih _ h (by omega)
    · rw [if_neg (mt (ht _ hp).mp h)]
      exact ih _ h1 (by omega)

/-- In the first quarter turn the model's sample is the real product rounded half up. -/
theorem nearestCos_eq {amp h d : Nat} (ha : amp < 2 ^ 15) (hd : 0 < d) (hh : 2 * h ≤ d) :
    (nearestCos amp h d : ℤ) = ⌊(amp : ℝ) * Real.cos (Real.pi * h / d) + 1 / 2⌋ := by
  have hg : 0 < h.gcd d := Nat.gcd_pos_of_pos_right _ hd
  have hgR : ((h.gcd d : ℕ) : ℝ) ≠ 0 := by exact_mod_cast hg.ne'
  have hang : Real.pi * (h / h.gcd d : ℕ) / (d / h.gcd d : ℕ) = Real.pi * h / d := by
    rw [Nat.cast_div (Nat.gcd_dvd_left _ _) hgR, Nat.cast_div (Nat.gcd_dvd_right _ _) hgR]
    have : (d : ℝ) ≠ 0 := by exact_mod_cast hd.ne'
    field_simp
  have hd' : 0 < d / h.gcd d := Nat.div_pos (Nat.gcd_le_right _ hd) hg
  have hh' : h / h.gcd d ≤ d / h.gcd d := Nat.div_le_div_right (by omega)
  have hdR : (0 : ℝ) < d := by exact_mod_cast hd
  have hc0 : 0 ≤ Real.cos (Real.pi * h / d) := by
    apply Real.cos_nonneg_of_neg_pi_div_two_le_of_le
    · have : 0 ≤ Real.pi * h / d := by positivity
      have := Real.pi_pos
      linarith
    · rw [div_le_div_iff₀ hdR two_pos]
      have : (h : ℝ) * 2 ≤ d := by exact_mod_cast (by omega : h * 2 ≤ d)
      nlinarith [Real.pi_pos]
  have hx0 : (0 : ℝ) ≤ amp * Real.cos (Real.pi * h / d) + 1 / 2 := by positivity
  have ht : ∀ m, 1 ≤ m → (reaches amp (h / h.gcd d) (d / h.gcd d) m = true ↔
      m ≤ ⌊(amp : ℝ) * Real.cos (Real.pi * h / d) + 1 / 2⌋₊) := by
    intro m hm
    rw [reaches_iff hm hd' hh', hang, Nat.le_floor_iff hx0]
  rw [← Int.natCast_floor_eq_floor hx0]
  set F := ⌊(amp : ℝ) * Real.cos (Real.pi * h / d) + 1 / 2⌋₊ with hF
  have hF15 : F < 2 ^ 15 := by
    rw [hF, Nat.floor_lt hx0]
    have h1 := Real.cos_le_one (Real.pi * h / d)
    have h2 : (amp : ℝ) + 1 ≤ 2 ^ 15 := by exact_mod_cast (by omega : amp + 1 ≤ 2 ^ 15)
    have h3 : (0 : ℝ) ≤ amp := by positivity
    push_cast
    nlinarith
  congr 1
  simp only [nearestCos]
  split
  · rename_i hchk
    simp only [Bool.and_eq_true, Bool.or_eq_true, decide_eq_true_eq, Bool.not_eq_true', Bool.eq_false_iff, ne_eq] at hchk
    obtain ⟨h1, h2⟩ := hchk
    rw [ht _ (by omega)] at h2
    rcases Nat.eq_zero_or_pos (cosEstimate amp (h / h.gcd d) (d / h.gcd d)) with h0 | hpos
    · omega
    · rcases h1 with h1 | h1
      · omega
      · rw [ht _ hpos] at h1; omega
  · exact greatest_eq ht 15 0 (Nat.zero_le _) (by simpa using hF15)
end Sys2Proof.Machine
end

