-- ==== Sys2Proof/Tests/Slice0.lean ====
section
/-! SUPPORT. Tests with expected values from spec/95_test_vectors.md and the rules' examples, and a witness of the hypotheses of every obligation that has some. -/

namespace Sys2Proof.Tests
open Sys2Proof Sys2Proof.Machine

/- One proof after another: many kernel evaluations at once need more memory than the check allows. -/
set_option Elab.async false

/-! ### Helpers -/

/-- The block of the spec's vectors: 48000 samples per second, default tones (R7). -/
def cfgOf (baud : Nat) (v : Variant) (amp : Nat) : Cfg :=
  { sampleRate := 48000, baud := baud, fMark := 1200, fSpace := 2400, variant := v, amp := amp, tieBit := false }

/-- That block after reset. -/
def boxOf (baud : Nat) (v : Variant) (amp : Nat) : State := State.resetWith (cfgOf baud v amp)

/-- 2400 baud, `STANDARD`, full amplitude. -/
def box : State := boxOf 2400 .standard 32767

/-- 2400 baud, `NRZI`, full amplitude. -/
def boxN : State := boxOf 2400 .nrzi 32767

/-- The smallest frames a valid configuration can have, two samples. -/
def tiny : Cfg :=
  { sampleRate := 4, baud := 2, fMark := 1, fSpace := 2, variant := .standard, amp := 3, tieBit := false }

/-- The smallest block after reset. -/
def tinyBox : State := State.resetWith tiny

/-- The smallest block under `NRZI`. -/
def tinyBoxN : State := State.resetWith { tiny with variant := .nrzi }

/-- The state a result goes on with. -/
def nextOf : Result → Option State
  | .next t => some t
  | .fault _ => none
  | .refused _ => none

/-- One step of a block whose stream is these words. -/
def stepOn (s : State) (ws : List Word) : Option State := nextOf (step { s with cmd := ws })

/-- The events of one step of a block whose stream is these words. -/
def eventsOn (s : State) (ws : List Word) : Option (List Event) := (stepOn s ws).map State.trace

/-- Samples from integers. -/
def smps (l : List Int) : List Sample := l.map (BitVec.ofInt 16)

/-- The mark frame at 2400 baud and full amplitude (R123). -/
def markFrame : List Sample := smps
  [32767, 32364, 31163, 29196, 26509, 23170, 19260, 14876, 10126, 5126,
   0, -5126, -10126, -14876, -19260, -23170, -26509, -29196, -31163, -32364]

/-- The space frame at 2400 baud and full amplitude (R123). -/
def spaceFrame : List Sample := smps
  [32767, 31163, 26509, 19260, 10126, 0, -10126, -19260, -26509, -31163,
   -32767, -31163, -26509, -19260, -10126, 0, 10126, 19260, 26509, 31163]

/-! ### Well-formedness refuses each ill-formed term -/

theorem test_wf_frame_short : Instr.wf tiny (.detect [0#32]) = false := by decide
theorem test_wf_frame_long : Instr.wf tiny (.rxframe [0#32, 0#32, 0#32]) = false := by decide
theorem test_wf_block_long : Instr.wf tiny (.spush (List.replicate 65536 0#32)) = false := by
  rw [Instr.wf, blockPayloadOk, List.length_replicate]; decide
theorem test_wf_block_long_rx : Instr.wf tiny (.rxpush (List.replicate 65536 0#32)) = false := by
  rw [Instr.wf, blockPayloadOk, List.length_replicate]; decide
theorem test_wf_good : Instr.wf tiny (.detect [0#32, 1#32]) = true := by decide

/-! ### Decoding: one written-out word for every operation (R90 to R93 and the rules' examples) -/

theorem test_decode_synth : decodeTableWord 32 0x01000001 = some (.synth true) := by decide +kernel
theorem test_decode_lenc : decodeTableWord 32 0x02000001 = some (.lenc true) := by decide +kernel
theorem test_decode_txbit : decodeTableWord 32 0x03000000 = some (.txbit false) := by decide +kernel
theorem test_decode_txbyte : decodeTableWord 32 0x040000A5 = some (.txbyte 0xA5#8) := by decide +kernel
theorem test_decode_detect : decodeTableWord 32 0x08000000 = some (.detect (List.replicate 20 0#32)) := by
  decide +kernel
theorem test_decode_ldec : decodeTableWord 32 0x09000001 = some (.ldec true) := by decide +kernel
theorem test_decode_rxframe : decodeTableWord 32 0x0A000000 = some (.rxframe (List.replicate 20 0#32)) := by
  decide +kernel
theorem test_decode_spush : decode Cfg.default [0x0C000002#32, 0x00010005#32, 6#32, 7#32] =
    .ok (.spush [0x00010005#32, 6#32], [7#32]) := by decide +kernel
theorem test_decode_rxpush : decode Cfg.default [0x0D000001#32, 0x0000FF9C#32] = .ok (.rxpush [0x0000FF9C#32], []) := by
  decide +kernel
theorem test_decode_henc : decodeTableWord 32 0x1000000B = some (.henc 11#4) := by decide +kernel
theorem test_decode_hdec : decodeTableWord 32 0x110000B5 = some (.hdec 0xB5#8) := by decide +kernel
theorem test_decode_rdreg : decodeTableWord 32 0x2000000A = some (.rdreg 0x0A#8) := by decide +kernel
theorem test_decode_sreset : decodeTableWord 32 0x3F000000 = some .sreset := by decide +kernel

/-- V17: words that are no command. -/
theorem test_decode_reserved :
    decode Cfg.default [0xFF000000#32] = .error (.illegalOpcode 0xFF#8) ∧
    decode Cfg.default [0x0B000000#32] = .error (.illegalOpcode 0x0B#8) ∧
    decode Cfg.default [0x10000010#32] = .error (.illegalField 0) ∧
    decode Cfg.default [0x0C800000#32] = .error (.illegalField 0) := by decide +kernel

/-- The word a test places is the word the next step runs. -/
theorem test_withFetchWord :
    (nextOf (step (State.reset.withFetchWord 32 0x1000000B))).map (fun t => (t.trace, t.cmdptr)) =
      some ([.rsp 0x000000B1#32], 1) := by decide +kernel

/-! ### Tone synthesizer and transmit path (V10) -/

theorem test_synth_mark : eventsOn box [0x01000001#32] = some [.txs markFrame, .rsp 1#32] := by decide +kernel
theorem test_synth_space : eventsOn box [0x01000000#32] = some [.txs spaceFrame, .rsp 1#32] := by decide +kernel
/-- Row 7: a 1 flips the polarity. -/
theorem test_txbit_nrzi_one : (stepOn boxN [0x03000001#32]).map (fun t => (t.trace, t.encPol)) =
    some ([.txs spaceFrame, .rsp 0#32], false) := by decide +kernel
/-- Row 8: a 0 keeps it. -/
theorem test_txbit_nrzi_zero : (stepOn { boxN with encPol := false } [0x03000000#32]).map (fun t => (t.trace, t.encPol)) =
    some ([.txs spaceFrame, .rsp 0#32], false) := by decide +kernel
/-- Rows 10 and 11, and V11's table: the symbols as a byte. -/
theorem test_txbyte_nrzi :
    ([0x00#8, 0xFF#8, 0xA5#8, 0x3C#8, 0x80#8, 0x01#8, 0x55#8].map (fun v =>
      (bitsValue (nrziSymbols true (iterSymbols v))))) = [0xFF, 0x55, 0x39, 0xD7, 0x00, 0xFE, 0x99] := by decide +kernel
/-- Row 9. -/
theorem test_txbyte_standard :
    ((stepOn { box with cfg := tiny } [0x040000A5#32]).map (fun t => (rspPort t.trace, txsPort t.trace))) =
      some ([0xA5#32], [true, false, true, false, false, true, false, true].map (toneFrame tiny)) := by decide +kernel

/-! ### Line coder (V11) -/

theorem test_lenc_nrzi : (stepOn boxN [0x02000001#32]).map (fun t => (t.trace, t.encPol)) =
    some ([.rsp 0#32], false) := by decide +kernel
theorem test_ldec_nrzi : (stepOn boxN [0x09000000#32]).map (fun t => (t.trace, t.decPol)) =
    some ([.rsp 1#32], false) := by decide +kernel
theorem test_ldec_standard : (stepOn box [0x09000000#32]).map (fun t => (t.trace, t.decPol)) =
    some ([.rsp 0#32], true) := by decide +kernel

/-! ### Bit detector and byte assembler (V12, V13) -/

/-- V12 rows 3 and 5: silence reads as space, a negated space frame as mark. -/
theorem test_distances : (toneDist box.cfg (List.replicate 20 0#16) true, toneDist box.cfg (List.replicate 20 0#16) false) =
    (416347, 413766) := by decide +kernel
theorem test_detect_bad_payload :
    eventsOn tinyBox [0x08000000#32, 0#32, 0x00010000#32] = some [.rsp 0x20000001#32] := by decide +kernel
/-- V13, eighth frame. -/
theorem test_rxframe_eighth :
    (stepOn { box with rxSr := 0x52#8, rxCnt := 7#3 } (0x0A000000#32 :: markFrame.map payloadWord)).map
      (fun t => (t.trace, t.rxSr, t.rxCnt)) = some ([.rxb 0xA5#8, .rsp 0x101#32], 0xA5#8, 0#3) := by decide +kernel
/-- V13, ninth frame. -/
theorem test_rxframe_ninth :
    (stepOn { box with rxSr := 0xA5#8, rxCnt := 0#3 } (0x0A000000#32 :: spaceFrame.map payloadWord)).map
      (fun t => (t.trace, t.rxSr, t.rxCnt)) = some ([.rsp 0#32], 0x4A#8, 1#3) := by decide +kernel

/-! ### Frame synchronizer (V14, V24) -/

/-- Row 4. -/
theorem test_spush_strip : (stepOn box [0x0C000007#32, 0#32, 0#32, 0#32, 5#32, 0#32, 0#32, 7#32]).map
    (fun t => (t.trace, t.fsBuf)) = some ([.rsp 0#32], [0#16, 5#16, 0#16, 0#16, 7#16]) := by decide +kernel
/-- Row 9: two frames at exactly the capacity. -/
theorem test_spush_two : (stepOn { box with fsBuf := (List.range 19).map (fun k => BitVec.ofNat 16 (k + 1)) }
      (0x0C000015#32 :: (List.range 21).map (fun k => BitVec.ofNat 32 (k + 20)))).map (fun t => (t.trace, t.fsBuf)) =
    some ([.evt .active, .aln ((List.range 20).map (fun k => BitVec.ofNat 16 (k + 1))),
      .aln ((List.range 20).map (fun k => BitVec.ofNat 16 (k + 21))), .evt .inactive, .rsp 2#32], []) := by
  decide +kernel
/-- V24: the length check goes before the payload check. -/
theorem test_bad_length_first : eventsOn { box with fsBuf := [0#16, 100#16, 0xFF9C#16] }
    (0x0C000026#32 :: 0x00010001#32 :: List.replicate 37 1#32) = some [.rsp 0x30000003#32] := by decide +kernel
/-- V22, block 9: the byte's last frame, one sample late. -/
theorem test_rxpush_eighth :
    (stepOn { box with rxSr := 0x52#8, rxCnt := 7#3, fsBuf := [31163#16] }
      (0x0D000013#32 :: (markFrame.take 19).map payloadWord)).map (fun t => (t.trace, t.rxCnt, t.fsBuf)) =
    some ([.evt .active, .rxb 0xA5#8, .evt .inactive, .rsp 0x101#32], 0#3, []) := by decide +kernel

/-! ### Hamming codec (V15) -/

theorem test_henc_eleven : eventsOn box [0x1000000B#32] = some [.rsp 0x000000B1#32] := by decide +kernel
theorem test_hdec_row_b : ((List.range 16).map (fun k => hammingDecode (BitVec.ofNat 8 (0xB0 + k)))) =
    [some 0xB#4, some 0xB#4, none, some 0xB#4, none, some 0xB#4, some 0x3#4, none,
     none, some 0xB#4, some 0xA#4, none, some 0x9#4, none, none, some 0xF#4] := by decide +kernel
theorem test_hdec_uncorrectable : eventsOn box [0x1100006F#32] = some [.rsp 0x40000000#32] := by decide +kernel

/-! ### System operations (V16, V17) -/

theorem test_rdreg_config : ([0x00, 0x01, 0x02, 0x03, 0x04, 0x05, 0x06, 0x07, 0x08, 0x0B].map (fun (k : Nat) =>
      eventsOn (boxOf 1200 .nrzi 16384) [0x20000000#32 ||| BitVec.ofNat 32 k])) =
    ([0x000004B0#32, 0x00000028#32, 0x0000BB80#32, 0x000004B0#32, 0x00000960#32, 0x00004000#32, 0x00000001#32,
      0x20000000#32, 0x0000000E#32, 0x20000000#32].map (fun w => some [Event.rsp w])) := by decide +kernel
/-- V22: `STATUS` with a count of 1. -/
theorem test_rdreg_status : eventsOn { box with rxCnt := 1#3 } [0x20000008#32] = some [.rsp 0x0000001E#32] := by
  decide +kernel
theorem test_sreset : (stepOn { boxN with encPol := false, rxCnt := 3#3, fsBuf := [5#16] } [0x3F000000#32]).map
    (fun t => (t.trace, t.encPol, t.rxCnt, t.fsBuf)) = some ([.rsp 0#32], true, 0#3, []) := by decide +kernel
theorem test_sreset_field : (stepOn { boxN with encPol := false } [0x3F000001#32]).map
    (fun t => (t.trace, t.encPol)) = some ([.rsp 0x20000000#32], false) := by decide +kernel
/-- V24, the stuck case: a closed stream cut inside a command. -/
theorem test_stuck : (match step { tinyBox with cmd := [0x08000000#32, 0#32], closed := true } with
    | .fault .incompleteCommand => true
    | _ => false) = true := by decide +kernel

/-- R98's example: `SPUSH 20` of seven zeros and the first thirteen samples of the mark frame. -/
theorem test_assemble : assemble [("Z", [0#16]), ("M", markFrame)]
      [.command .spush (some 20) (.append (.times (.named "Z") 7) (.slice (.named "M") 0 13))] =
    some (0x0C000014#32 :: (List.replicate 7 0#32 ++ (markFrame.take 13).map payloadWord)) := by decide +kernel

/-! ### Witnesses: concrete inputs that meet all hypotheses of each obligation -/

/-- A stream that holds these words, at its start, in the smallest block. -/
def holding (ws : List Word) : State := { tinyBox with cmd := ws }

theorem tiny_valid : tiny.valid = true := by decide
theorem tinyBox_ready : tinyBox.Ready := by decide
theorem tinyBox_standing : tinyBox.Standing := by decide

theorem witness_DecodeAfterEncode : Instr.wf tiny (.rxframe [5#32, 0xFFFFFFFF#32]) = true := by decide
theorem witness_EncodeAfterDecode :
    decode tiny [0x0A000000#32, 5#32, 6#32, 7#32] = .ok (.rxframe [5#32, 6#32], [7#32]) := by decide +kernel
theorem witness_TableRowsAreTheLegalWords :
    paylen tiny 0x0C00FFFF#32 ≤ (List.replicate 65535 (0#32 : Word)).length ∧
    (∃ row ∈ opcodeTable, row.hits 0x0C00FFFF#32 = true) ∧ (∃ p, decode tiny [0x3F000000#32] = .ok p) := by
  refine ⟨?_, by decide, ⟨(.sreset, []), by decide +kernel⟩⟩
  rw [List.length_replicate, paylen, if_neg (by decide), if_pos (by decide)]
  decide
theorem witness_StepRunsDecodedCommand :
    (holding (encode (.henc 3#4) ++ [9#32])).cfg.valid = true ∧ Instr.wf tiny (.henc 3#4) = true ∧
    (holding (encode (.henc 3#4) ++ [9#32])).cmd.drop 0 = encode (.henc 3#4) ++ [9#32] := by decide +kernel
theorem witness_WaitingChangesNothing :
    (tinyBox.cfg.valid = true ∧ tinyBox.cmd.length ≤ tinyBox.cmdptr) ∧
    ((holding [0x08000000#32, 1#32]).cmd.drop 0 = 0x08000000#32 :: [1#32] ∧
      [(1#32 : Word)].length < paylen tiny 0x08000000#32 ∧ (holding [0x08000000#32, 1#32]).closed = false) := by
  decide +kernel
theorem witness_ClosedInsideCommandIsStuck :
    let s : State := { holding [0x0C000001#32] with closed := true }
    s.cfg.valid = true ∧ s.closed = true ∧ s.cmd.drop s.cmdptr = 0x0C000001#32 :: [] ∧
      ([] : List Word).length < paylen s.cfg 0x0C000001#32 := by decide +kernel
theorem witness_ReservedOpcodeAnswered :
    (holding [0x05001234#32]).cfg.valid = true ∧ (holding [0x05001234#32]).cmd.drop 0 = 0x05001234#32 :: [] ∧
    opc 0x05001234#32 ∉ [0x01#8, 0x02#8, 0x03#8, 0x04#8, 0x08#8, 0x09#8, 0x0A#8, 0x0C#8, 0x0D#8, 0x10#8, 0x11#8, 0x20#8,
      0x3F#8] := by decide +kernel
theorem witness_HeaderFieldErrorAnswered :
    (holding [0x03010001#32]).cfg.valid = true ∧ (holding [0x03010001#32]).cmd.drop 0 = 0x03010001#32 :: [] ∧
    (paylen tiny 0x03010001#32 ≤ 0 ∧ opc 0x03010001#32 = Op.txbit.code ∧ rsv 0x03010001#32 ≠ 0#8) ∧
    (opc 0x10000010#32 = Op.henc.code ∧ imm 0x10000010#32 &&& Op.henc.immZero ≠ 0#16) := by decide +kernel
theorem witness_OpenStreamNeverStops : tinyBox.cfg.valid = true ∧ tinyBox.closed = false := by decide
theorem witness_PointerPassesWholeCommand :
    (holding [0x0C000001#32, 7#32]).cmd.drop 0 = 0x0C000001#32 :: [7#32] ∧
    paylen tiny 0x0C000001#32 ≤ [(7#32 : Word)].length ∧ ∃ t, step (holding [0x0C000001#32, 7#32]) = .next t := by
  refine ⟨by decide, by decide +kernel, _, rfl⟩
theorem witness_LaterWordsChangeNothing :
    (holding [0x02000001#32]).cmd.drop 0 = 0x02000001#32 :: [] ∧ paylen tiny 0x02000001#32 ≤ ([] : List Word).length ∧
    ∃ t, step (holding [0x02000001#32]) = .next t := by
  refine ⟨by decide, by decide +kernel, _, rfl⟩
theorem witness_CleanCommandsAssemble :
    Instr.wf tiny (.detect [5#32, 6#32]) = true ∧ payloadClean (Instr.detect [5#32, 6#32]).payload = true ∧
    (Instr.detect [5#32, 6#32]).payload.length ≤ 65535 ∧ 0 ≤ 65535 ∧ 65535 ≤ 65535 := by decide +kernel
theorem witness_OnlyValidConfigurationsRun :
    (State.resetWith { tiny with baud := 3 }).cfg.valid = false := by decide
theorem witness_ResetStands : tiny.valid = true := by decide
theorem witness_StandingKept :
    (holding [0x0C000001#32, 7#32]).Standing ∧ ∃ t, step (holding [0x0C000001#32, 7#32]) = .next t :=
  ⟨by decide, _, rfl⟩
theorem witness_StandardPolaritiesRest :
    (holding [0x03000001#32]).PolaritiesRest ∧ ∃ t, step (holding [0x03000001#32]) = .next t :=
  ⟨fun _ => ⟨rfl, rfl⟩, _, rfl⟩
theorem witness_TraceStaysWellFormed :
    (holding [0x03000001#32]).TraceOk ∧ ∃ t, step (holding [0x03000001#32]) = .next t :=
  ⟨fun e h => (by cases h), _, rfl⟩
theorem witness_TraceOnlyGrows : ∃ t, step (holding [0x3F000000#32]) = .next t := ⟨_, rfl⟩
theorem witness_OneResponsePerCommand : tinyBox.cfg.valid = true := by decide
theorem witness_ErrorsChangeNothing :
    tinyBox.cfg.valid = true ∧ ∃ t, exec (.hdec 3#8) tinyBox = .next t ∧
      t.trace = tinyBox.trace ++ [] ++ [.rsp 0x40000000#32] ∧ respStat 0x40000000#32 ≠ 0#4 :=
  ⟨by decide, _, rfl, by decide +kernel, by decide⟩
theorem witness_OperationsWriteOnlyTheirRegisters :
    tinyBox.Ready ∧ (∃ t, exec (.detect [1#32, 2#32]) tinyBox = .next t) ∧ (∃ t, exec (.txbyte 7#8) tinyBox = .next t) ∧
    (∃ t, exec (.ldec true) tinyBox = .next t) ∧ (∃ t, exec (.rxframe [1#32, 2#32]) tinyBox = .next t) ∧
    (∃ t, exec (.spush [1#32]) tinyBox = .next t) ∧ (∃ t, exec (.rxpush [1#32, 2#32]) tinyBox = .next t) :=
  ⟨by decide, ⟨_, rfl⟩, ⟨_, rfl⟩, ⟨_, rfl⟩, ⟨_, rfl⟩, ⟨_, rfl⟩, ⟨_, rfl⟩⟩
theorem witness_TransmitAndReceiveCommute : tinyBoxN.cfg.valid = true ∧
    (∃ b, Instr.txbit true = .txbit b) ∧ (∃ p, Instr.rxpush [1#32, 2#32] = .rxpush p) := ⟨by decide, ⟨_, rfl⟩, ⟨_, rfl⟩⟩
theorem witness_ToneRom : tiny.valid = true ∧ (tiny.toneFreq true * 1) % tiny.sampleRate = (tiny.toneFreq true * 5) % tiny.sampleRate := by
  decide
theorem witness_ToneContentsAtDefaultTones :
    (cfgOf 2400 .nrzi 3).sampleRate = 48000 ∧ (cfgOf 2400 .nrzi 3).fMark = 1200 ∧ (cfgOf 2400 .nrzi 3).fSpace = 2400 ∧
    ∃ row ∈ quarters40, (cfgOf 2400 .nrzi 3).amp = row.1 := by decide
theorem witness_ZeroPairsInTones :
    ((cfgOf 2400 .standard 4).valid = true ∧ 4 ≤ (cfgOf 2400 .standard 4).amp) ∧
    ((cfgOf 2400 .standard 3).valid = true ∧ (cfgOf 2400 .standard 3).amp ≤ 3 ∧ 11 ≤ (cfgOf 2400 .standard 3).frameSize) ∧
    ((cfgOf 8000 .standard 1).valid = true ∧ (cfgOf 8000 .standard 1).amp = 1 ∧
      6 ≤ (cfgOf 8000 .standard 1).frameSize) := by decide
/-- The hypothesis on the coding, both ways: `TxbitSendsSymbol`, `TxbyteStandard`, `TxbyteNrzi`, `LencSteps`, `LdecSteps`. -/
theorem witness_variants : tinyBox.cfg.variant = .standard ∧ tinyBoxN.cfg.variant = .nrzi := by decide
theorem witness_LineCodingInverts : tinyBoxN.cfg.variant = tinyBoxN.cfg.variant ∧ tinyBoxN.encPol = tinyBoxN.decPol := by
  decide
theorem witness_NrziErrorsStayLocal : tinyBoxN.cfg.variant = .nrzi ∧
    ({ tinyBoxN with encPol := false } : State).encPol = (!tinyBoxN.decPol) := by decide
theorem witness_DetectNamesNearer : payloadClean [1#32, 2#32] = true ∧ [(1#32 : Word), 2#32].length = tinyBox.cfg.frameSize := by
  decide
theorem witness_DistanceFitsAccumulator : tiny.valid = true := by decide
theorem witness_TieParityLaw : [(1#16 : Sample), 2#16].length = tiny.frameSize := by decide
theorem witness_CleanFramesAndTies : toneFrame tiny true ≠ toneFrame tiny false ∧
    ({ tiny with fSpace := 1 } : Cfg).fMark = ({ tiny with fSpace := 1 } : Cfg).fSpace := by decide +kernel
theorem witness_RxframeAssembles : payloadClean [1#32, 2#32] = true ∧
    ({ tinyBox with rxCnt := 7#3 } : State).rxCnt = 7#3 ∧ tinyBox.rxCnt ≠ 7#3 := by decide
theorem witness_FramePayloadErrorAnswered : ∃ w ∈ [(0#32 : Word), 0x00010000#32], prsv w ≠ 0#16 :=
  ⟨0x00010000#32, by simp, by decide⟩
theorem witness_StripLeavesOneZero : ([5#16] : List Sample).head? ≠ some 0#16 := by decide
theorem witness_SpushAligns :
    tinyBox.Ready ∧ tinyBox.fsBuf.length + 1 ≤ tinyBox.cfg.bufCap ∧ payloadClean [7#32] = true ∧
    (stripZeros (tinyBox.fsBuf ++ samples [7#32])).length < tinyBox.cfg.frameSize ∧
    (tinyBox.fsBuf.length + 2 ≤ tinyBox.cfg.bufCap ∧
      tinyBox.cfg.frameSize ≤ (stripZeros (tinyBox.fsBuf ++ samples [7#32, 0#32])).length ∧
      (stripZeros (tinyBox.fsBuf ++ samples [7#32, 0#32])).length < 2 * tinyBox.cfg.frameSize) ∧
    (tinyBox.fsBuf.length + 4 ≤ tinyBox.cfg.bufCap ∧
      (stripZeros (tinyBox.fsBuf ++ samples [7#32, 0#32, 0#32, 1#32])).length = 2 * tinyBox.cfg.frameSize) := by
  decide +kernel
theorem witness_RxpushIsSpushThenRxframes : tinyBox.Ready ∧ 1 ≤ [(7#32 : Word), 0#32].length ∧
    tinyBox.fsBuf.length + [(7#32 : Word), 0#32].length ≤ tinyBox.cfg.bufCap ∧ payloadClean [7#32, 0#32] = true := by decide
theorem witness_AdmissionOfBlocks :
    tinyBox.cfg.valid = true ∧ (1 ≤ 4 ∧ tinyBox.fsBuf.length + 4 ≤ tinyBox.cfg.bufCap) ∧
    payloadClean (List.replicate 4 1#32) = true ∧ ¬(1 ≤ 5 ∧ tinyBox.fsBuf.length + 5 ≤ tinyBox.cfg.bufCap) ∧
    ¬(1 ≤ 0 ∧ tinyBox.fsBuf.length + 0 ≤ tinyBox.cfg.bufCap) ∧
    tinyBox.AtBoundary ∧ 1 ≤ 3 ∧ 3 ≤ tinyBox.cfg.frameSize + 1 := by decide
theorem witness_BlockPayloadErrorAnswered : 1 ≤ [(0x00010000#32 : Word)].length ∧
    tinyBox.fsBuf.length + [(0x00010000#32 : Word)].length ≤ tinyBox.cfg.bufCap ∧
    ∃ w ∈ [(0x00010000#32 : Word)], prsv w ≠ 0#16 := ⟨by decide, by decide, 0x00010000#32, by simp, by decide⟩
theorem witness_LeadingSilenceAlignment :
    (({ tinyBox with fsBuf := [0#16] } : State).Ready ∧ tinyBox.Ready) ∧
    (∀ b ∈ [[0#16, 0#16, 5#16], [(0#16 : Sample), 7#16]], 1 ≤ b.length ∧ b.length ≤ tinyBox.cfg.frameSize + 1) ∧
    AllAdmitted spushOf [[0#16, 0#16, 5#16, 0#16], [(7#16 : Sample)]] tinyBox ∧
    [[0#16, 0#16, 5#16, 0#16], [(7#16 : Sample)]].flatten = List.replicate 2 0#16 ++ [5#16, 0#16, 7#16] ∧
    [(5#16 : Sample), 0#16, 7#16].head? ≠ some 0#16 ∧ hasZeroPair [5#16, 0#16, 7#16] = false :=
  ⟨by decide, by decide, ⟨by decide, fun t h => by cases h; exact ⟨by decide +kernel, fun _ _ => trivial⟩⟩, by decide, by decide, by decide⟩
theorem witness_SilenceAfterLateBurst : ({ tinyBox with fsBuf := [5#16] } : State).Ready ∧ (5#16 : Sample) ≠ 0#16 ∧
    ∀ b ∈ [[(0#16 : Sample)], [0#16, 0#16]], 1 ≤ b.length ∧ b.length ≤ tinyBox.cfg.frameSize ∧ ∀ y ∈ b, y = 0#16 :=
  ⟨by decide, by decide, by simp [tinyBox, tiny, Cfg.frameSize]⟩
theorem witness_ModulationRoundTrip : tinyBox.cfg.valid = true ∧ tinyBox.Ready ∧ LinkReady tinyBox tinyBox ∧
    tinyBox.fsBuf = [] ∧ ∀ y, detect tinyBox.cfg (toneFrame tinyBox.cfg y) = y :=
  ⟨by decide, by decide, ⟨rfl, rfl, rfl, rfl, rfl, ⟨rfl, rfl⟩, rfl, .inl rfl⟩, rfl, by decide +kernel⟩
/-- A block whose two tones hold no zero and are told apart one sample late: `3, 3, 3, 3, 3` and `3, 2, 1, -1, -2`. -/
def five : Cfg :=
  { sampleRate := 10, baud := 2, fMark := 10, fSpace := 1, variant := .nrzi, amp := 3, tieBit := false }
/-- That block after reset. -/
def fiveBox : State := State.resetWith five
theorem noZeroPair_of_noZero : ∀ l : List Sample, (∀ v ∈ l, v ≠ 0#16) → hasZeroPair l = false
  | [], _ => rfl
  | [_], _ => rfl
  | a :: b :: l, h => by
    simp [hasZeroPair, h a (by simp), noZeroPair_of_noZero (b :: l) fun v hv => h v (by simp_all)]
/-- `AllAdmitted`, computed along the run. -/
def admittedRun (push : List Sample → Instr) : List (List Sample) → State → Bool
  | [], _ => true
  | b :: bs, s => s.admits b.length && ((nextOf (exec (push b) s)).all fun t => admittedRun push bs t)
theorem allAdmitted_of_run (push : List Sample → Instr) :
    ∀ (blocks : List (List Sample)) (s : State), admittedRun push blocks s = true → AllAdmitted push blocks s
  | [], _, _ => trivial
  | b :: bs, s, h => by
    simp only [admittedRun, Bool.and_eq_true] at h
    refine ⟨h.1, fun t ht => allAdmitted_of_run push bs t ?_⟩
    simpa [ht, nextOf] using h.2
/-- The frames of `TXBYTE 0xA5` on that block. -/
def fiveFrames : List Frame := ((nextOf (exec (.txbyte 0xA5#8) fiveBox)).map fun t => txsPort t.trace).getD []
theorem witness_LateModulationRoundTrip : fiveBox.cfg.valid = true ∧ fiveBox.Ready ∧ LinkReady fiveBox fiveBox ∧
    (∀ symbols : List Bit, hasZeroPair (symbols.flatMap (toneFrame fiveBox.cfg)) = false) ∧
    (∀ (x : Sample) (y : Bit), x = 0#16 ∨ (∃ z, x = tone fiveBox.cfg z (fiveBox.cfg.frameSize - 1)) →
      detect fiveBox.cfg (lateWindow x (toneFrame fiveBox.cfg y)) = y) ∧
    (∃ t, execAll (expandTxmsg [0xA5#8]) fiveBox = .next t ∧ txsPort t.trace = txsPort fiveBox.trace ++ fiveFrames) ∧
    1 ≤ fiveBox.fsBuf.length + 7 ∧ AllAdmitted rxpushOf (List.replicate 7 0#16 :: fiveFrames) fiveBox ∧
    (List.replicate 7 0#16 :: fiveFrames).flatten = List.replicate 7 (0#16 : Sample) ++ fiveFrames.flatten := by
  refine ⟨by decide, by decide, ⟨rfl, rfl, rfl, rfl, rfl, ⟨rfl, rfl⟩, rfl, .inl rfl⟩, fun symbols => ?_, ?_,
    ⟨_, rfl, rfl⟩, by decide, allAdmitted_of_run _ _ _ (by decide +kernel), rfl⟩
  · apply noZeroPair_of_noZero
    intro v hv
    obtain ⟨y, -, hy⟩ := List.mem_flatMap.mp hv
    have key : ∀ y, (toneFrame fiveBox.cfg y).all (fun v => decide (v ≠ 0#16)) = true := by decide +kernel
    exact of_decide_eq_true (List.all_eq_true.mp (key y) v hy)
  · have key : ∀ y z, detect fiveBox.cfg (lateWindow 0#16 (toneFrame fiveBox.cfg y)) = y ∧
        detect fiveBox.cfg (lateWindow (tone fiveBox.cfg z (fiveBox.cfg.frameSize - 1)) (toneFrame fiveBox.cfg y)) = y := by
      decide +kernel
    rintro x y (rfl | ⟨z, rfl⟩)
    · exact (key y true).1
    · exact (key y z).2
theorem witness_HdecFindsNearCodeword : weight (0xB5#8 ^^^ hammingTable.getD (11#4 : Nibble).toNat 0#8) ≤ 1 ∧
    ∀ n : Nibble, 2 ≤ weight (0x6F#8 ^^^ hammingTable.getD n.toNat 0#8) := by decide +kernel
theorem witness_RdregReadsMap : tinyBox.cfg.baud < 65536 := by decide
theorem witness_RdregReservedIndex : (0x07#8 : Byte).toNat = 7 ∧ 0x0B ≤ (0x0B#8 : Byte).toNat ∧
    0x0B ≤ (0xFF#8 : Byte).toNat := by decide

end Sys2Proof.Tests
end

/-! PROOF. The statements of 00_scope.md: construction, what every step keeps, and the independence of the transmit and
the receive side. -/

namespace Sys2Proof.Machine

/-! ### Construction and the invariants of a step -/

/-- A step with a next state moves `CMDPTR` past words the stream holds, if at all (R61, R94). -/
theorem step_keeps_pointer_inside {s t : State} (hs : s.cmdptr ≤ s.cmd.length) (h : step s = .next t) :
    t.cmdptr ≤ t.cmd.length := by
  obtain rfl | ⟨m, st, v, n, rfl, hb, w, tail, hw, rfl, hl⟩ := step_effect h
  · exact hs
  · have hlen : s.cmd.length - s.cmdptr = tail.length + 1 := by
      rw [← List.length_drop, hw, List.length_cons]
    simp only [advance_cmdptr, respond_cmdptr, advance_cmd, respond_cmd, hb.emits.cmdptr, hb.emits.cmd]
    omega

/-- Settles O17: the effect of a step is a command's body, which keeps the boundary, and an answer, which moves only the
trace and the pointer. -/
theorem standingKept : Obligations.StandingKept := by
  unfold Obligations.StandingKept
  rintro s t ⟨⟨hv, hbd⟩, hp⟩ h
  refine ⟨?_, step_keeps_pointer_inside hp h⟩
  obtain rfl | ⟨m, st, v, n, rfl, hb, -⟩ := step_effect h
  · exact ⟨hv, hbd⟩
  · have hvalid : m.cfg.valid = true := by rw [hb.emits.cfg]; exact hv
    exact ⟨hvalid, hb.boundary hbd⟩

/-- Settles O20: a command's body emits and its answer emits once more; neither writes the configuration or the stream. -/
theorem traceOnlyGrows : Obligations.TraceOnlyGrows := by
  unfold Obligations.TraceOnlyGrows
  intro s t h
  obtain rfl | ⟨m, st, v, n, rfl, hb, -⟩ := step_effect h
  · exact ⟨rfl, rfl, rfl, [], (List.append_nil _).symm⟩
  · obtain ⟨evs, hevs, -⟩ := hb.emits.events
    exact ⟨hb.emits.cfg, hb.emits.cmd, hb.emits.closed, evs ++ [Event.rsp (responseWord st v)], by simp [hevs]⟩

/-- The validity check is the conjunction of the conditions of R8 and R9. -/
theorem cfg_valid_iff (c : Cfg) : c.valid = true ↔
    1 ≤ c.sampleRate ∧ 1 ≤ c.baud ∧ c.baud ∣ c.sampleRate ∧ 1 ≤ c.amp ∧ c.amp ≤ 32767 ∧ 1 ≤ c.fMark ∧ 1 ≤ c.fSpace ∧
      2 ≤ c.sampleRate / c.baud ∧ c.sampleRate / c.baud ≤ 32767 := by
  simp only [Cfg.valid, Bool.and_eq_true, decide_eq_true_eq, and_assoc, Nat.dvd_iff_mod_eq_zero]
  rfl

/-- Settles O14: the check is R8 and R9 read off, `construct` and `step` test it first, and the six bauds are
evaluated. -/
theorem onlyValidConfigurationsRun : Obligations.OnlyValidConfigurationsRun := by
  unfold Obligations.OnlyValidConfigurationsRun
  refine ⟨cfg_valid_iff, fun c => rfl, fun s hs => ?_, by decide, by decide⟩
  simp [step, hs]

/-- Settles O16: the reset buffer is empty, which is less than a frame, the polarities are at mark and the trace is
empty. -/
theorem resetStands : Obligations.ResetStands := by
  unfold Obligations.ResetStands
  intro c hc
  have hboundary : (State.resetWith c).AtBoundary := ⟨rfl, rfl, frameSize_pos hc⟩
  exact ⟨⟨⟨hc, hboundary⟩, Nat.zero_le _⟩, fun _ => ⟨rfl, rfl⟩, by simp [State.TraceOk]⟩

/-! ### Ports of a trace (R63) -/

theorem txsPort_append (t u : List Event) : txsPort (t ++ u) = txsPort t ++ txsPort u := List.filterMap_append
theorem alnPort_append (t u : List Event) : alnPort (t ++ u) = alnPort t ++ alnPort u := List.filterMap_append
theorem rxbPort_append (t u : List Event) : rxbPort (t ++ u) = rxbPort t ++ rxbPort u := List.filterMap_append
theorem evtPort_append (t u : List Event) : evtPort (t ++ u) = evtPort t ++ evtPort u := List.filterMap_append
theorem rspPort_append (t u : List Event) : rspPort (t ++ u) = rspPort t ++ rspPort u := List.filterMap_append

/-- Sent frames are all on the `TXS` port and on no other. -/
theorem ports_of_sent (frames : List Frame) :
    txsPort (frames.map Event.txs) = frames ∧ alnPort (frames.map Event.txs) = [] ∧ rxbPort (frames.map Event.txs) = [] ∧
      evtPort (frames.map Event.txs) = [] ∧ rspPort (frames.map Event.txs) = [] := by
  induction frames with
  | nil => exact ⟨rfl, rfl, rfl, rfl, rfl⟩
  | cons f frames ih =>
    obtain ⟨htxs, haln, hrxb, hevt, hrsp⟩ := ih
    exact ⟨congrArg (f :: ·) htxs, haln, hrxb, hevt, hrsp⟩

/-- A response is on the `RSP` port and on no other. -/
theorem ports_of_response (w : Word) :
    txsPort [Event.rsp w] = [] ∧ alnPort [Event.rsp w] = [] ∧ rxbPort [Event.rsp w] = [] ∧ evtPort [Event.rsp w] = [] ∧
      rspPort [Event.rsp w] = [w] := ⟨rfl, rfl, rfl, rfl, rfl⟩

/-! ### The transmit side (R17)

A transmit-side command reads the configuration and `ENC_POL`, and writes `ENC_POL`, the trace and the pointer. -/

/-- The commands of the transmit side. -/
abbrev TransmitSide (i : Instr) : Prop :=
  (∃ y, i = .synth y) ∨ (∃ b, i = .lenc b) ∨ (∃ b, i = .txbit b) ∨ (∃ v, i = .txbyte v)

/-- `s` after a transmit-side command: `ENC_POL` is `e`, `frames` are sent and the response is `w`. -/
def transmitted (e : Bit) (frames : List Frame) (w : Word) (s : State) : State :=
  { s with
    encPol := e
    trace := s.trace ++ frames.map Event.txs ++ [Event.rsp w]
    cmdptr := s.cmdptr + 1 }

theorem complete_transmitted (e : Bit) (frames : List Frame) (v : Half) (s : State) :
    complete 1 v { s with encPol := e, trace := s.trace ++ frames.map Event.txs } =
      .next (transmitted e frames (responseWord .ok v) s) := rfl

/-- The encoder's symbol and polarity depend on the configuration and `ENC_POL` alone (R141). -/
theorem lineEncode_uniform (b : Bit) (c : Cfg) (pol : Bit) :
    ∃ y e, ∀ s : State, s.cfg = c → s.encPol = pol → lineEncode b s = (y, { s with encPol := e }) := by
  rcases variant_cases c with hc | hc
  · refine ⟨b, pol, ?_⟩
    rintro s rfl rfl
    exact lineEncode_standard hc b
  · refine ⟨b ^^ pol, b ^^ pol, ?_⟩
    rintro s rfl rfl
    exact lineEncode_nrzi hc b

/-- What a list of bits sends depends on the configuration and `ENC_POL` alone (R127). -/
theorem sendBits_uniform (bs : List Bit) (v : Half) (c : Cfg) (pol : Bit) :
    ∃ (w : Half) (frames : List Frame) (e : Bit), ∀ s : State, s.cfg = c → s.encPol = pol →
      sendBits bs v s = (w, { s with encPol := e, trace := s.trace ++ frames.map Event.txs }) := by
  induction bs generalizing v pol with
  | nil =>
    refine ⟨v, [], pol, ?_⟩
    rintro s rfl rfl
    simp [sendBits]
  | cons b bs ih =>
    obtain ⟨y, e, hy⟩ := lineEncode_uniform b c pol
    obtain ⟨w, frames, e', hw⟩ := ih ((v <<< 1) ||| bitHalf y) e
    refine ⟨w, toneFrame c y :: frames, e', fun s hc hp => ?_⟩
    simp only [sendBits, sendBit, hy s hc hp]
    rw [hw (State.sendSymbol y { s with encPol := e }) hc rfl]
    simp [State.sendSymbol, State.emit, hc]

/-- WHAT A TRANSMIT-SIDE COMMAND DOES, the same in every state with the same configuration and `ENC_POL`. -/
theorem exec_transmitSide {i : Instr} (hi : TransmitSide i) (c : Cfg) (pol : Bit) :
    ∃ e frames w, ∀ s : State, s.cfg = c → s.encPol = pol → exec i s = .next (transmitted e frames w s) := by
  obtain ⟨y, rfl⟩ | ⟨b, rfl⟩ | ⟨b, rfl⟩ | ⟨v, rfl⟩ := hi
  · refine ⟨pol, [toneFrame c y], responseWord .ok 1#16, ?_⟩
    rintro s rfl rfl
    rfl
  · obtain ⟨y, e, hy⟩ := lineEncode_uniform b c pol
    refine ⟨e, [], responseWord .ok (bitHalf y), fun s hc hp => ?_⟩
    simp only [exec, execLenc, hy s hc hp, ← complete_transmitted, List.map_nil, List.append_nil]
  · obtain ⟨y, e, hy⟩ := lineEncode_uniform b c pol
    refine ⟨e, [toneFrame c y], responseWord .ok (bitHalf y), fun s hc hp => ?_⟩
    simp only [exec, execTxbit, sendBit, hy s hc hp, ← complete_transmitted, State.sendSymbol, State.emit, hc,
      List.map_cons, List.map_nil]
  · obtain ⟨w, frames, e, hw⟩ := sendBits_uniform (iterSymbols v) 0#16 c pol
    refine ⟨e, frames, responseWord .ok w, fun s hc hp => ?_⟩
    simp only [exec, execTxbyte, hw s hc hp, complete_transmitted]

/-! ### The receive side (R17)

A receive-side command neither reads nor writes `ENC_POL`, and only appends to the trace and adds to the pointer. So it
commutes with setting `ENC_POL`, putting events before the trace and moving the pointer on, which is what a
transmit-side command does to the state it finds. -/

/-- The commands of the receive side. -/
abbrev ReceiveSide (j : Instr) : Prop :=
  (∃ p, j = .ldec p) ∨ (∃ p, j = .detect p) ∨ (∃ p, j = .rxframe p) ∨ (∃ p, j = .spush p) ∨ (∃ p, j = .rxpush p)

/-- `s` with `ENC_POL` at `e`, the events `pre` before its trace, and the pointer `k` words on. -/
def State.withPast (e : Bit) (pre : List Event) (k : Nat) (s : State) : State :=
  { s with encPol := e, trace := pre ++ s.trace, cmdptr := s.cmdptr + k }

section withPast

variable (e : Bit) (pre : List Event) (k : Nat) (s : State)

@[simp] theorem withPast_cfg : (s.withPast e pre k).cfg = s.cfg := rfl
@[simp] theorem withPast_encPol : (s.withPast e pre k).encPol = e := rfl
@[simp] theorem withPast_decPol : (s.withPast e pre k).decPol = s.decPol := rfl
@[simp] theorem withPast_rxSr : (s.withPast e pre k).rxSr = s.rxSr := rfl
@[simp] theorem withPast_rxCnt : (s.withPast e pre k).rxCnt = s.rxCnt := rfl
@[simp] theorem withPast_fsBuf : (s.withPast e pre k).fsBuf = s.fsBuf := rfl
@[simp] theorem withPast_fsState : (s.withPast e pre k).fsState = s.fsState := rfl
@[simp] theorem withPast_receiving : (s.withPast e pre k).receiving = s.receiving := rfl
@[simp] theorem withPast_cmdptr : (s.withPast e pre k).cmdptr = s.cmdptr + k := rfl
@[simp] theorem withPast_trace : (s.withPast e pre k).trace = pre ++ s.trace := rfl

theorem emit_withPast (ev : Event) : (s.withPast e pre k).emit ev = (s.emit ev).withPast e pre k := by
  simp [State.emit, State.withPast]

theorem answered_withPast (st : Stat) (v : Half) (n : Nat) :
    answered (s.withPast e pre k) st v n = (answered s st v n).withPast e pre k := by
  simp [State.respond, State.advance, State.emit, State.withPast, Nat.add_right_comm]

theorem lineDecode_withPast (p : Bit) :
    lineDecode p (s.withPast e pre k) = ((lineDecode p s).1, (lineDecode p s).2.withPast e pre k) := by
  rcases variant_cases s.cfg with h | h
  · rw [lineDecode_standard h, lineDecode_standard (by exact h)]
  · rw [lineDecode_nrzi h, lineDecode_nrzi (by exact h)]
    rfl

theorem receiveFrame_withPast (f : Frame) :
    receiveFrame f (s.withPast e pre k) =
      ⟨(receiveFrame f s).bit, (receiveFrame f s).byte, (receiveFrame f s).next.withPast e pre k⟩ := by
  simp only [receiveFrame_eq, State.withPast, List.append_assoc]

theorem assertReceiving_withPast :
    (s.withPast e pre k).assertReceiving = s.assertReceiving.withPast e pre k := by
  cases h : s.receiving
  · simp [State.assertReceiving, h, State.emit, State.withPast]
  · simp [State.assertReceiving, h]

end withPast

/-- A drained block whose state has another past. -/
def Drained.withPast (e : Bit) (pre : List Event) (k : Nat) (r : Drained) : Drained :=
  { r with state := r.state.withPast e pre k }

/-- A delivery of the receive side: the past makes no difference to it, and it sends no frame. -/
structure Deliver.ReceiveSide (d : Deliver) : Prop where
  withPast : ∀ e pre k f s, d f (State.withPast e pre k s) = ((d f s).1.withPast e pre k, (d f s).2)
  txsPort  : ∀ f s, txsPort (d f s).1.trace = txsPort s.trace

theorem receiveFrame_txsPort (f : Frame) (s : State) : txsPort (receiveFrame f s).next.trace = txsPort s.trace := by
  rw [receiveFrame_eq]
  by_cases h : s.rxCnt = 7#3 <;> simp [txsPort, Event.txsFrame, h]

theorem deliverAligned_receiveSide : Deliver.ReceiveSide deliverAligned where
  withPast e pre k f s := by rw [deliverAligned, emit_withPast]; rfl
  txsPort f s := by simp [deliverAligned, txsPort, Event.txsFrame]

theorem deliverReceived_receiveSide : Deliver.ReceiveSide deliverReceived where
  withPast e pre k f s := by rw [deliverReceived, receiveFrame_withPast]; rfl
  txsPort f s := receiveFrame_txsPort f s

/-- A drained block whose `EMITTING` excursion ends (R186). -/
def leaving (r : Drained) : Drained := { r with state := left r.state }

theorem leaving_withPast (e : Bit) (pre : List Event) (k : Nat) (r : Drained) :
    leaving (r.withPast e pre k) = (leaving r).withPast e pre k := by
  simp [leaving, Drained.withPast, State.clearReceiving, State.emit, State.withPast]

section synchronizer

variable {d : Deliver} (hd : d.ReceiveSide)
include hd

theorem drainOne_withPast (e : Bit) (pre : List Event) (k : Nat) (r : Drained) :
    drainOne d (r.withPast e pre k) = (drainOne d r).withPast e pre k := by
  have hdrop : ∀ (n : Nat) (s : State), (s.withPast e pre k).dropFrame n = (s.dropFrame n).withPast e pre k :=
    fun _ _ => rfl
  simp only [drainOne, Drained.withPast, assertReceiving_withPast, hdrop, hd.withPast]
  rfl

theorem emitFrames_withPast (e : Bit) (pre : List Event) (k n : Nat) (r : Drained) :
    emitFrames d n (r.withPast e pre k) = (emitFrames d n r).withPast e pre k := by
  induction n generalizing r with
  | zero => rfl
  | succ n ih =>
    rcases Nat.lt_or_ge r.state.fsBuf.length r.state.cfg.frameSize with h | h
    · rw [emitFrames_stop h, emitFrames_stop (by exact h)]
    · rw [emitFrames_pass h, emitFrames_pass (by exact h), drainOne_withPast hd, ih]

theorem syncBlock_withPast (e : Bit) (pre : List Event) (k : Nat) (xs : List Sample) (s : State) :
    syncBlock d xs (s.withPast e pre k) = (syncBlock d xs s).withPast e pre k := by
  have hpush : ((s.withPast e pre k).pushBlock xs).strip = (s.pushBlock xs).strip.withPast e pre k := rfl
  simp only [syncBlock, hpush, withPast_cfg, withPast_fsBuf]
  set t := (s.pushBlock xs).strip
  split
  · have hloop := emitFrames_withPast hd e pre k t.fsBuf.length ⟨{ t with fsState := .emitting }, 0, 0⟩
    exact (congrArg leaving hloop).trans (leaving_withPast e pre k _)
  · rfl

theorem emitFrames_txsPort (n : Nat) (r : Drained) :
    txsPort (emitFrames d n r).state.trace = txsPort r.state.trace := by
  induction n generalizing r with
  | zero => rfl
  | succ n ih =>
    rcases Nat.lt_or_ge r.state.fsBuf.length r.state.cfg.frameSize with h | h
    · rw [emitFrames_stop h]
    · rw [emitFrames_pass h, ih, drainOne, hd.txsPort]
      cases hr : r.state.receiving <;> simp [hr, txsPort, Event.txsFrame]

theorem syncBlock_txsPort (xs : List Sample) (s : State) :
    txsPort (syncBlock d xs s).state.trace = txsPort s.trace := by
  simp only [syncBlock]
  split
  · simp only [clearReceiving_trace, txsPort_append, emitFrames_txsPort hd]
    simp [txsPort, Event.txsFrame]
  · rfl

end synchronizer

/-! ### Receive-side commands -/

/-- A meaning of the receive side: it answers a next state, sends no frame, and does the same whatever the past. -/
def IgnoresPast (op : State → Result) : Prop :=
  ∀ s, ∃ t, op s = .next t ∧ txsPort t.trace = txsPort s.trace ∧
    ∀ e pre k, op (s.withPast e pre k) = .next (t.withPast e pre k)

theorem IgnoresPast.complete {n : Nat} {v : State → Half} {g : State → State}
    (hv : ∀ e pre k s, v (s.withPast e pre k) = v s) (hg : ∀ e pre k s, g (s.withPast e pre k) = (g s).withPast e pre k)
    (htxs : ∀ s, txsPort (g s).trace = txsPort s.trace) : IgnoresPast fun s => complete n (v s) (g s) := by
  intro s
  refine ⟨answered (g s) .ok (v s) n, rfl, ?_, fun e pre k => ?_⟩
  · rw [advance_trace, respond_trace, txsPort_append, htxs]
    exact List.append_nil _
  · simp only [hv, hg, complete_eq, answered_withPast]

theorem IgnoresPast.raise {st : Stat} {n : Nat} {v : State → Half} (hv : ∀ e pre k s, v (s.withPast e pre k) = v s) :
    IgnoresPast fun s => raise st (v s) n s := by
  intro s
  refine ⟨answered s st (v s) n, rfl, ?_, fun e pre k => ?_⟩
  · rw [advance_trace, respond_trace, txsPort_append]
    exact List.append_nil _
  · simp only [hv, raise_eq, answered_withPast]

theorem IgnoresPast.ite {c : State → Bool} {a b : State → Result} (hc : ∀ e pre k s, c (s.withPast e pre k) = c s)
    (ha : IgnoresPast a) (hb : IgnoresPast b) : IgnoresPast fun s => if c s then a s else b s := by
  intro s
  simp only [hc]
  cases c s
  · exact hb s
  · exact ha s

theorem lineDecode_txsPort (p : Bit) (s : State) : txsPort (lineDecode p s).2.trace = txsPort s.trace := by
  obtain ⟨e, h⟩ := lineDecode_snd p s
  rw [h]

/-- A block operation ignores the past when its delivery does; `v` is its response's value (R187, R188). -/
theorem block_ignoresPast {d : Deliver} (hd : d.ReceiveSide) (pay : List Word) (v : Nat → Nat → Half) :
    IgnoresPast fun s =>
      if s.admits pay.length then
        if payloadClean pay then
          let r := syncBlock d (samples pay) s
          complete (1 + pay.length) (v r.frames r.bytes) r.state
        else raise .illegalField 1#16 (1 + pay.length) s
      else raiseBadLength (1 + pay.length) s :=
  .ite (fun _ _ _ _ => rfl)
    (.ite (fun _ _ _ _ => rfl)
      (.complete (fun e pre k s => by rw [syncBlock_withPast hd]; rfl)
        (fun e pre k s => by rw [syncBlock_withPast hd]; rfl) (syncBlock_txsPort hd _))
      (.raise fun _ _ _ _ => rfl))
    (.raise fun _ _ _ _ => rfl)

/-- Every receive-side command ignores the past. -/
theorem exec_ignoresPast {j : Instr} (hj : ReceiveSide j) : IgnoresPast (exec j) := by
  obtain ⟨p, rfl⟩ | ⟨pay, rfl⟩ | ⟨pay, rfl⟩ | ⟨pay, rfl⟩ | ⟨pay, rfl⟩ := hj
  · exact .complete (fun e pre k s => by rw [lineDecode_withPast]) (fun e pre k s => by rw [lineDecode_withPast])
      (lineDecode_txsPort p)
  · exact .ite (fun _ _ _ _ => rfl) (.complete (fun _ _ _ _ => rfl) (fun _ _ _ _ => rfl) fun _ => rfl)
      (.raise fun _ _ _ _ => rfl)
  · exact .ite (fun _ _ _ _ => rfl)
      (.complete (fun e pre k s => by rw [receiveFrame_withPast]) (fun e pre k s => by rw [receiveFrame_withPast])
        (receiveFrame_txsPort _))
      (.raise fun _ _ _ _ => rfl)
  · exact block_ignoresPast deliverAligned_receiveSide pay fun frames _ => BitVec.ofNat 16 frames
  · exact block_ignoresPast deliverReceived_receiveSide pay fun frames bytes => packVal bytes frames

/-- WHAT A RECEIVE-SIDE COMMAND DOES, the same from every past: `t` is where it leads from an empty trace, with the
events it emits, and the command's one response is its last event. -/
theorem exec_receiveSide {j : Instr} (hj : ReceiveSide j) (s : State) (hv : s.cfg.valid = true) :
    ∃ (t : State) (evs : List Event) (w : Word), t.cfg = s.cfg ∧ t.trace = evs ++ [Event.rsp w] ∧
      txsPort evs = [] ∧ rspPort evs = [] ∧
      ∀ e pre k, exec j { s with encPol := e, trace := pre, cmdptr := s.cmdptr + k } = .next (t.withPast e pre k) := by
  obtain ⟨t, ht, htxs, hpast⟩ := exec_ignoresPast hj { s with trace := [] }
  obtain ⟨m, st, v, hm, hb⟩ := exec_effect j { s with trace := [] } (frameSize_pos hv)
  obtain ⟨evs, hevs, hquiet⟩ := hb.emits.events
  obtain rfl : t = answered m st v j.length := by simpa [ht] using hm
  refine ⟨answered m st v j.length, evs, responseWord st v, hb.emits.cfg, by simp [hevs], ?_, ?_, fun e pre k => ?_⟩
  · simpa [hevs, txsPort, Event.txsFrame] using htxs
  · exact List.filterMap_eq_nil_iff.mpr fun ev hev => (hquiet ev hev).1
  · simpa [State.withPast] using hpast e pre k

theorem execAll_pair {i j : Instr} {s m t : State} (hi : exec i s = .next m) (hj : exec j m = .next t) :
    execAll [i, j] s = .next t := by
  simp only [execAll, hi, hj]

/-- Settles O25: in either order the receive-side command finds the state it would find alone, with another past, and the
transmit-side command finds the same `ENC_POL`; the trace of one holds no event of a port the other emits on, responses
apart. -/
theorem transmitAndReceiveCommute : Obligations.TransmitAndReceiveCommute := by
  unfold Obligations.TransmitAndReceiveCommute
  intro s i j hv hi hj
  obtain ⟨e, frames, wi, htx⟩ := exec_transmitSide hi s.cfg s.encPol
  obtain ⟨t, evs, wj, hcfg, htrace, htxs, hrsp, hrx⟩ := exec_receiveSide hj s hv
  have hj_first : exec j s = .next (t.withPast s.encPol s.trace 0) := hrx s.encPol s.trace 0
  have hi_first : exec i s = .next (transmitted e frames wi s) := htx s rfl rfl
  have hj_second : exec j (transmitted e frames wi s) =
      .next (t.withPast e (s.trace ++ frames.map Event.txs ++ [Event.rsp wi]) 1) := hrx e _ 1
  have hi_second : exec i (t.withPast s.encPol s.trace 0) =
      .next (transmitted e frames wi (t.withPast s.encPol s.trace 0)) := htx _ hcfg rfl
  have htrace_ij : (t.withPast e (s.trace ++ frames.map Event.txs ++ [Event.rsp wi]) 1).trace =
      s.trace ++ frames.map Event.txs ++ [Event.rsp wi] ++ (evs ++ [Event.rsp wj]) := by
    rw [withPast_trace, htrace]
  have htrace_ji : (transmitted e frames wi (t.withPast s.encPol s.trace 0)).trace =
      s.trace ++ (evs ++ [Event.rsp wj]) ++ frames.map Event.txs ++ [Event.rsp wi] := by
    rw [transmitted, withPast_trace, htrace]
  refine ⟨_, _, wi, wj, execAll_pair hi_first hj_second, execAll_pair hj_first hi_second, rfl, rfl,
    ?_, ?_, ?_, ?_, ?_, ?_⟩
  · simp only [htrace_ij, htrace_ji, txsPort_append, ports_of_sent, ports_of_response, htxs, List.append_nil]
  · simp only [htrace_ij, htrace_ji, alnPort_append, ports_of_sent, ports_of_response, List.append_nil]
  · simp only [htrace_ij, htrace_ji, rxbPort_append, ports_of_sent, ports_of_response, List.append_nil]
  · simp only [htrace_ij, htrace_ji, evtPort_append, ports_of_sent, ports_of_response, List.append_nil]
  · simp only [htrace_ij, rspPort_append, ports_of_sent, ports_of_response, hrsp, List.append_nil, List.nil_append]
    exact List.append_assoc _ _ _
  · simp only [htrace_ji, rspPort_append, ports_of_sent, ports_of_response, hrsp, List.append_nil, List.nil_append]
    exact List.append_assoc _ _ _

end Sys2Proof.Machine


/-! PROOF. The statements of 10_state.md: the registers, their reset values and map, what each operation may write, and the
tone ROM. -/

namespace Sys2Proof.Machine

/-! ### The pointer and the polarities under a step (R21, R22, R28) -/

/-- A command word whose payload is present decodes, or is answered as a reserved code or for a must-be-0 bit; the
length taken is the same each time (R94, R100). -/
theorem decode_whole {c : Cfg} {w : Word} {rest : List Word} (hl : paylen c w ≤ rest.length) :
    (∃ i r, decode c (w :: rest) = .ok (i, r) ∧ i.length = 1 + paylen c w) ∨
      (decode c (w :: rest) = .error (.illegalOpcode (opc w)) ∧ paylen c w = 0) ∨
      decode c (w :: rest) = .error (.illegalField (paylen c w)) := by
  cases hop : Op.ofCode (opc w) with
  | none => exact .inr (.inl ⟨decode_of_reserved hop, paylen_of_reserved hop⟩)
  | some op =>
    by_cases hz : rsv w = 0#8 ∧ imm w &&& op.immZero = 0#16
    · have hd := decode_legal hl (ofCode_eq_some.mp hop) hz.1 hz.2
      obtain ⟨_, _, hw, -, hlen⟩ := decode_ok_length hd
      cases hw
      exact .inl ⟨_, _, hd, hlen⟩
    · exact .inr (.inr (decode_of_badField hl hop hz))

/-- A step at a whole command is that command's body and answer, past its words; it never waits (R100). -/
theorem step_of_whole {s t : State} {w : Word} {rest : List Word} (hw : s.cmd.drop s.cmdptr = w :: rest)
    (hl : paylen s.cfg w ≤ rest.length) (h : step s = .next t) :
    ∃ m st v, t = answered m st v (1 + paylen s.cfg w) ∧ CommandBody s m st := by
  obtain ⟨hv, -⟩ := step_cases h
  have hfetch : fetch s = decode s.cfg (w :: rest) := by rw [fetch, hw]
  obtain ⟨i, r, hd, hlen⟩ | ⟨hd, hzero⟩ | hd := decode_whole hl <;> rw [← hfetch] at hd
  · obtain ⟨m, st, v, hm, hb⟩ := exec_effect i s (frameSize_pos hv)
    rw [step_of_fetch hv hd, hm, hlen] at h
    cases h
    exact ⟨m, st, v, rfl, hb⟩
  · simp only [step, hv, hd, rejected, if_true, raise_eq, Host.Outcome.next.injEq] at h
    exact ⟨s, _, _, by rw [hzero, ← h], .same _ _⟩
  · simp only [step, hv, hd, rejected, if_true, raise_eq, Host.Outcome.next.injEq] at h
    exact ⟨s, _, _, h.symm, .same _ _⟩

/-- Settles O11: a command's body leaves the pointer, and its answer moves it past the whole command. -/
theorem pointerPassesWholeCommand : Obligations.PointerPassesWholeCommand := by
  unfold Obligations.PointerPassesWholeCommand
  intro s t w rest hw hl h
  obtain ⟨m, st, v, rfl, hb⟩ := step_of_whole hw hl h
  rw [advance_cmdptr, respond_cmdptr, hb.emits.cmdptr, Nat.add_assoc]

/-- Settles O18: a command's body keeps the resting polarities, and its answer writes no register. -/
theorem standardPolaritiesRest : Obligations.StandardPolaritiesRest := by
  unfold Obligations.StandardPolaritiesRest
  intro s t hs h
  obtain rfl | ⟨m, st, v, n, rfl, hb, -⟩ := step_effect h
  · exact hs
  · exact hb.rest hs

/-! ### The registers each operation may write (R20 to R27) -/

/-- A `SYNTH`, `DETECT`, `HENC`, `HDEC` or `RDREG` writes no data register. -/
theorem exec_data_of_readOnly {i : Instr} {s t : State}
    (hi : (∃ y, i = .synth y) ∨ (∃ p, i = .detect p) ∨ (∃ n, i = .henc n) ∨ (∃ c, i = .hdec c) ∨ (∃ x, i = .rdreg x))
    (h : exec i s = .next t) : t.data = s.data := by
  obtain ⟨y, rfl⟩ | ⟨pay, rfl⟩ | ⟨n, rfl⟩ | ⟨c, rfl⟩ | ⟨x, rfl⟩ := hi
  · cases h; rfl
  · simp only [exec, execDetect] at h
    split at h <;> cases h <;> rfl
  · cases h; rfl
  · simp only [exec, execHdec] at h
    split at h <;> cases h <;> rfl
  · simp only [exec, execRdreg] at h
    split at h <;> cases h <;> rfl

/-- A transmit-side command writes at most `ENC_POL`. -/
theorem exec_data_of_transmitSide {i : Instr} {s t : State} (hi : TransmitSide i) (h : exec i s = .next t) :
    t.data = { s.data with encPol := t.encPol } := by
  obtain ⟨e, frames, w, htx⟩ := exec_transmitSide hi s.cfg s.encPol
  rw [htx s rfl rfl] at h
  cases h
  rfl

/-- `LDEC` writes at most `DEC_POL`. -/
theorem exec_ldec_data {p : Bit} {s t : State} (h : exec (.ldec p) s = .next t) :
    t.data = { s.data with decPol := t.decPol } := by
  obtain ⟨e, he⟩ := lineDecode_snd p s
  simp only [exec, execLdec, he] at h
  cases h
  rfl

/-- `RXFRAME` writes at most the receive path's registers. -/
theorem exec_rxframe_data {pay : List Word} {s t : State} (h : exec (.rxframe pay) s = .next t) :
    t.data = { s.data with decPol := t.decPol, rxSr := t.rxSr, rxCnt := t.rxCnt } := by
  obtain ⟨d, sr, cnt, hnext⟩ := receiveFrame_next (samples pay) s
  simp only [exec, execRxframe, hnext] at h
  split at h <;> cases h <;> rfl

/-- `SPUSH` leaves the registers, where it is refused, or leaves them as the synchronizer does. -/
theorem exec_spush_data_cases {pay : List Word} {s t : State} (h : exec (.spush pay) s = .next t) :
    t.data = s.data ∨ t.data = (syncBlock deliverAligned (samples pay) s).state.data := by
  simp only [exec, execSpush] at h
  split at h
  · split at h
    · cases h; exact .inr rfl
    · cases h; exact .inl rfl
  · cases h; exact .inl rfl

/-- `RXPUSH` leaves the registers, where it is refused, or leaves them as the synchronizer does. -/
theorem exec_rxpush_data_cases {pay : List Word} {s t : State} (h : exec (.rxpush pay) s = .next t) :
    t.data = s.data ∨ t.data = (syncBlock deliverReceived (samples pay) s).state.data := by
  simp only [exec, execRxpush] at h
  split at h
  · split at h
    · cases h; exact .inr rfl
    · cases h; exact .inl rfl
  · cases h; exact .inl rfl

/-- One block at a boundary writes at most the receive path's registers and `FS_BUF`: `FS_STATE` and `RECEIVING` are back
at their values (R189), and `ENC_POL` belongs to the transmit side. -/
theorem syncBlock_data {d : Deliver} (hd : d.Ok) (xs : List Sample) {s : State} (hs : s.Ready) :
    (syncBlock d xs s).state.data = { s.data with
      decPol := (syncBlock d xs s).state.decPol, rxSr := (syncBlock d xs s).state.rxSr
      rxCnt := (syncBlock d xs s).state.rxCnt, fsBuf := (syncBlock d xs s).state.fsBuf } := by
  obtain ⟨hv, hstate, hrecv, -⟩ := hs
  obtain ⟨-, -, hst, hrc, henc⟩ := syncBlock_spec hd xs s (frameSize_pos hv)
  simp only [State.data, henc, hst hstate, hstate, hrc hrecv, hrecv]

/-- The `EMITTING` loop of `SPUSH` passes the receive path by. -/
theorem emitFrames_aligned_rxPath (n : Nat) (r : Drained) :
    (emitFrames deliverAligned n r).state.rxPath = r.state.rxPath := by
  induction n generalizing r with
  | zero => rfl
  | succ n ih =>
    rcases Nat.lt_or_ge r.state.fsBuf.length r.state.cfg.frameSize with h | h
    · rw [emitFrames_stop h]
    · rw [emitFrames_pass h, ih]
      cases hr : r.state.receiving <;>
        simp [drainOne, deliverAligned, State.rxPath, rxbPort, Event.rxbByte, hr]

/-- `SPUSH` passes the receive path by (R187). -/
theorem syncBlock_aligned_rxPath (xs : List Sample) (s : State) :
    (syncBlock deliverAligned xs s).state.rxPath = s.rxPath := by
  simp only [syncBlock]
  split
  · exact (left_rxPath _).trans (emitFrames_aligned_rxPath _ _)
  · rfl

/-- `SPUSH` writes at most `FS_BUF`. -/
theorem exec_spush_data {pay : List Word} {s t : State} (hs : s.Ready) (h : exec (.spush pay) s = .next t) :
    t.data = { s.data with fsBuf := t.fsBuf } := by
  change t.data = { s.data with fsBuf := t.data.fsBuf }
  obtain heq | heq := exec_spush_data_cases h
  · rw [heq]
  · have hpath := syncBlock_aligned_rxPath (samples pay) s
    simp only [State.rxPath, RxPath.mk.injEq] at hpath
    obtain ⟨hdec, hsr, hcnt, -⟩ := hpath
    rw [heq, syncBlock_data deliverAligned_ok _ hs, hdec, hsr, hcnt]
    rfl

/-- `RXPUSH` writes at most the receive path's registers and `FS_BUF`. -/
theorem exec_rxpush_data {pay : List Word} {s t : State} (hs : s.Ready) (h : exec (.rxpush pay) s = .next t) :
    t.data = { s.data with decPol := t.decPol, rxSr := t.rxSr, rxCnt := t.rxCnt, fsBuf := t.fsBuf } := by
  change t.data = { s.data with
    decPol := t.data.decPol, rxSr := t.data.rxSr, rxCnt := t.data.rxCnt, fsBuf := t.data.fsBuf }
  obtain heq | heq := exec_rxpush_data_cases h
  · rw [heq]
  · rw [heq]
    exact syncBlock_data deliverReceived_ok _ hs

/-- Settles O24: operation by operation; the boundary matters to `SPUSH` and `RXPUSH`, which enter and leave `EMITTING`. -/
theorem operationsWriteOnlyTheirRegisters : Obligations.OperationsWriteOnlyTheirRegisters := by
  unfold Obligations.OperationsWriteOnlyTheirRegisters
  exact fun s t hs => ⟨fun _ hi => exec_data_of_readOnly hi, fun _ hi => exec_data_of_transmitSide (.inr hi),
    fun _ => exec_ldec_data, fun _ => exec_rxframe_data, fun _ => exec_spush_data hs, fun _ => exec_rxpush_data hs⟩

/-! ### The tone ROM (R47, R122) -/

/-- In the first quarter turn a sample is at most the amplitude: the cosine is at most 1. -/
theorem nearestCos_le {amp h d : Nat} (ha : amp < 2 ^ 15) (hd : 0 < d) (hh : 2 * h ≤ d) : nearestCos amp h d ≤ amp := by
  have hcos : (amp : ℝ) * Real.cos (Real.pi * h / d) ≤ amp :=
    mul_le_of_le_one_right (Nat.cast_nonneg amp) (Real.cos_le_one _)
  have hfloor : (nearestCos amp h d : ℤ) < amp + 1 := by
    rw [nearestCos_eq ha hd hh, Int.floor_lt]
    push_cast
    linarith
  omega

/-- At phase 0 the sample is the amplitude: the cosine is 1. -/
theorem nearestCos_zero {amp d : Nat} (ha : amp < 2 ^ 15) (hd : 0 < d) : nearestCos amp 0 d = amp := by
  have hfloor : (nearestCos amp 0 d : ℤ) = amp := by
    rw [nearestCos_eq ha hd (Nat.zero_le _), Int.floor_eq_iff]
    norm_num
  exact_mod_cast hfloor

/-- Over the half turn a sample lies between the amplitude and its negative. -/
theorem roundedCos_bounds {amp h d : Nat} (ha : amp < 2 ^ 15) (hd : 0 < d) (hh : h ≤ d) :
    -(amp : ℤ) ≤ roundedCos amp h d ∧ roundedCos amp h d ≤ amp := by
  unfold roundedCos
  split
  case isTrue hquarter =>
    have := nearestCos_le ha hd hquarter
    omega
  case isFalse hquarter =>
    have := nearestCos_le ha hd (h := d - h) (by omega)
    omega

section valid

variable {c : Cfg} (hc : c.valid = true)
include hc

/-- A valid amplitude fits a sample (R8). -/
theorem amp_lt_of_valid : c.amp < 2 ^ 15 := by
  obtain ⟨-, -, -, -, hamp, -⟩ := (cfg_valid_iff c).mp hc
  omega

theorem sampleRate_pos_of_valid : 0 < c.sampleRate := ((cfg_valid_iff c).mp hc).1

theorem toneInt_bounds (s : Bit) (n : Nat) : -(c.amp : ℤ) ≤ toneInt c s n ∧ toneInt c s n ≤ c.amp :=
  roundedCos_bounds (amp_lt_of_valid hc) (sampleRate_pos_of_valid hc) (by omega)

/-- A sample of the tone ROM is stored without loss (R11, R121). -/
theorem toInt_tone (s : Bit) (n : Nat) : (tone c s n).toInt = toneInt c s n := by
  have hamp := amp_lt_of_valid hc
  obtain ⟨hlow, hhigh⟩ := toneInt_bounds hc s n
  rw [tone, BitVec.toInt_ofInt]
  exact Int.bmod_eq_of_le (by omega) (by omega)

theorem toneInt_zero (s : Bit) : toneInt c s 0 = c.amp := by
  simp [toneInt, roundedCos, nearestCos_zero (amp_lt_of_valid hc) (sampleRate_pos_of_valid hc)]

end valid

/-- A sample depends on its index only through the phase modulo a turn (R122 (c)). -/
theorem tone_congr_phase {c : Cfg} {s : Bit} {n m : Nat}
    (h : (c.toneFreq s * n) % c.sampleRate = (c.toneFreq s * m) % c.sampleRate) : tone c s n = tone c s m := by
  rw [tone, tone, toneInt, toneInt, h]

@[simp] theorem toneFrame_length (c : Cfg) (s : Bit) : (toneFrame c s).length = c.frameSize := by
  simp [toneFrame]

theorem toneFrame_head? {c : Cfg} (h : 0 < c.frameSize) (s : Bit) : (toneFrame c s).head? = some (tone c s 0) := by
  rw [toneFrame, List.head?_map, List.head?_range, if_neg h.ne']
  rfl

/-- Settles O27: the samples are the rounded products with a cosine, which is 1 at phase 0 and nowhere outside -1 to 1. -/
theorem toneRomProperties : Obligations.ToneRomProperties := by
  unfold Obligations.ToneRomProperties
  intro c s hc
  refine ⟨toneFrame_length c s, ?_, ?_, fun _ _ => tone_congr_phase⟩
  · rw [List.head?_map, toneFrame_head? (frameSize_pos hc), Option.map_some, toInt_tone hc, toneInt_zero hc]
  · intro x hx
    obtain ⟨n, -, rfl⟩ := List.mem_map.mp hx
    rw [toInt_tone hc]
    exact toneInt_bounds hc s n

/-! ### Reset (R50, R231, R282) -/

/-- Settles O15: the values are those `State.resetWith` writes. -/
theorem resetValues : Obligations.ResetValues := by
  unfold Obligations.ResetValues
  intro c
  exact ⟨rfl, rfl, rfl, rfl, rfl, rfl, rfl, rfl, rfl, rfl, rfl, rfl, rfl, reset_eq⟩

/-- Settles O58: `resetData` writes the registers, and the answer the trace and the pointer. -/
theorem sresetRestoresRegisters : Obligations.SresetRestoresRegisters := by
  unfold Obligations.SresetRestoresRegisters
  intro s
  rfl

/-! ### The register map (R41, R43, R230) -/

/-- `RDREG` of a defined index answers the map's value and changes no register (R230). -/
theorem exec_rdreg_of_csr {idx : Byte} {s : State} {v : Half} (h : csr idx s = some v) :
    exec (.rdreg idx) s = .next { s with
      trace := s.trace ++ [.rsp (responseWord .ok v)]
      cmdptr := s.cmdptr + 1 } := by
  simp only [exec, execRdreg, h]
  rfl

/-- The map has no register at a reserved index (R41). -/
theorem csr_of_reserved {idx : Byte} (s : State) (h : idx.toNat = 7 ∨ 0x0B ≤ idx.toNat) : csr idx s = none := by
  unfold csr
  split
  case h_11 => rfl
  all_goals omega

/-- `CFG_MODE` as a number (R41). -/
theorem cfgMode_eq (c : Cfg) :
    cfgMode c = BitVec.ofNat 16 ((if c.variant = .nrzi then 1 else 0) + 2 * c.tieBit.toNat) := by
  rcases variant_cases c with hv | hv <;> cases ht : c.tieBit <;> rw [cfgMode, hv, ht] <;> rfl

/-- `STATUS` as a number, each field at its bit (R43). -/
theorem status_eq (s : State) :
    s.status = BitVec.ofNat 16 (s.receiving.toNat + 2 * (!s.receiving).toNat + 4 * s.encPol.toNat +
      8 * s.decPol.toNat + 16 * s.rxCnt.toNat) := by
  have fields : ∀ (receiving enc dec : Bool) (cnt : BitVec 3),
      0#9 ++ cnt ++ BitVec.ofBool dec ++ BitVec.ofBool enc ++ BitVec.ofBool (!receiving) ++ BitVec.ofBool receiving =
        BitVec.ofNat 16 (receiving.toNat + 2 * (!receiving).toNat + 4 * enc.toNat + 8 * dec.toNat + 16 * cnt.toNat) := by
    decide
  exact fields s.receiving s.encPol s.decPol s.rxCnt

/-- A register of 16 bits reads as a number of the configuration reduced to 16 bits (R41). -/
theorem ofNat_mod_half (n : Nat) : BitVec.ofNat 16 (n % 65536) = BitVec.ofNat 16 n :=
  BitVec.eq_of_toNat_eq (by simp)

theorem cfgBaud_of_lt {c : Cfg} (h : c.baud < 65536) : cfgBaud c = BitVec.ofNat 16 c.baud := if_pos h

/-- Settles O56: the map's value at each index is the number the statement gives it. -/
theorem rdregReadsMap : Obligations.RdregReadsMap := by
  unfold Obligations.RdregReadsMap
  refine fun s => ⟨fun p hp => exec_rdreg_of_csr ?_, cfgBaud s.cfg, cfgBaud_of_lt, exec_rdreg_of_csr rfl⟩
  simp only [List.mem_cons, List.not_mem_nil, or_false] at hp
  obtain rfl | rfl | rfl | rfl | rfl | rfl | rfl | rfl | rfl := hp
  · rfl
  · exact congrArg some (ofNat_mod_half _).symm
  · exact congrArg some (ofNat_mod_half _).symm
  · exact congrArg some (ofNat_mod_half _).symm
  · rfl
  · exact congrArg some (cfgMode_eq s.cfg)
  · exact congrArg some (status_eq s)
  · exact congrArg some (BitVec.ofNat_toNat 16 s.rxSr).symm
  · rfl

/-- Settles O57: the map has no value there, so the error is raised. -/
theorem rdregReservedIndex : Obligations.RdregReservedIndex := by
  unfold Obligations.RdregReservedIndex
  intro s idx hidx
  simp only [exec, execRdreg, csr_of_reserved s hidx]
  rfl

end Sys2Proof.Machine


/-! PROOF. The statements of 20_memory.md: the command stream, which a step reads at `CMDPTR` and no further than the
command there, and the trace, which it only appends to. -/

namespace Sys2Proof.Machine

/-! ### Reading the stream (R61, R82, R100) -/

/-- The words of a well-formed command decode to it, whatever follows them (R90 to R94). -/
theorem decode_encode {c : Cfg} {i : Instr} (h : i.wf c = true) (rest : List Word) :
    decode c (encode i ++ rest) = .ok (i, rest) := by
  have hlen := paylen_encode h
  have hdecode := decode_legal (c := c) (tail := i.payload ++ rest) (op := i.op)
    (by rw [hlen, List.length_append]; exact Nat.le_add_right _ _) (opc_commandWord _ _) (rsv_commandWord _ _)
    (by rw [imm_commandWord]; exact imm_and_immZero i)
  rw [encode, List.cons_append, hdecode, hlen, List.take_left, List.drop_left, imm_commandWord, command_imm]

/-- Settles O5: the words decode to the command, and a step runs the command it has fetched. -/
theorem stepRunsDecodedCommand : Obligations.StepRunsDecodedCommand := by
  unfold Obligations.StepRunsDecodedCommand
  intro s i rest hv hwf hwords
  exact step_of_fetch hv (by rw [fetch, hwords, decode_encode hwf])

/-- On an open stream, what is done where no command runs has a next state: waiting is one, and so is taking an error
(R102, R252). -/
theorem rejected_of_open (e : DecodeError) {s : State} (hopen : s.closed = false) :
    ∃ t, rejected e s = .next t := by
  cases e with
  | noWord => exact ⟨s, rfl⟩
  | incomplete => exact ⟨s, by simp [rejected, hopen]⟩
  | illegalOpcode code => exact ⟨_, rfl⟩
  | illegalField n => exact ⟨_, rfl⟩

/-- Settles O10: a fetched command has an effect, and on an open stream so has everything else. -/
theorem openStreamNeverStops : Obligations.OpenStreamNeverStops := by
  unfold Obligations.OpenStreamNeverStops
  intro s hv hopen
  cases hf : fetch s with
  | ok p =>
    obtain ⟨m, st, v, hm, -⟩ := exec_effect p.1 s (frameSize_pos hv)
    exact ⟨_, (step_of_fetch hv hf).trans hm⟩
  | error e =>
    obtain ⟨t, ht⟩ := rejected_of_open e hopen
    exact ⟨t, by simpa only [step, hv, hf, if_true] using ht⟩

/-! ### The trace (R62, R96, R97) -/

/-- Settles O21: a command's body emits no response and leaves the pointer; its answer is the one response. -/
theorem oneResponsePerCommand : Obligations.OneResponsePerCommand := by
  unfold Obligations.OneResponsePerCommand
  intro i s hv
  obtain ⟨m, st, v, hm, hb⟩ := exec_effect i s (frameSize_pos hv)
  obtain ⟨evs, hevs, hquiet⟩ := hb.emits.events
  refine ⟨_, evs, responseWord st v, hm, ?_, ?_, ?_⟩
  · rw [advance_trace, respond_trace, hevs]
  · exact List.filterMap_eq_nil_iff.mpr fun e he => (hquiet e he).1
  · rw [advance_cmdptr, respond_cmdptr, hb.emits.cmdptr]

/-- A response word has a defined status and zero reserved bits (R96, R97). -/
theorem eventOk_response (c : Cfg) (st : Stat) (v : Half) : eventOk c (.rsp (responseWord st v)) := by
  refine ⟨?_, responseWord_reserved st v⟩
  rw [respStat_responseWord]
  cases st <;> decide

/-- Settles O19: a command's body appends well-formed events, and its answer a response. -/
theorem traceStaysWellFormed : Obligations.TraceStaysWellFormed := by
  unfold Obligations.TraceStaysWellFormed
  intro s t hs h
  obtain rfl | ⟨m, st, v, n, rfl, hb, -⟩ := step_effect h
  · exact hs
  · obtain ⟨evs, hevs, hquiet⟩ := hb.emits.events
    intro e he
    rw [advance_trace, respond_trace, hevs, List.append_assoc] at he
    rw [advance_cfg, respond_cfg, hb.emits.cfg]
    rcases List.mem_append.mp he with hold | hnew
    · exact hs e hold
    rcases List.mem_append.mp hnew with hbody | hanswer
    · exact (hquiet e hbody).2
    · rw [List.mem_singleton.mp hanswer]
      exact eventOk_response _ st v

/-! ### Another stream behind the same command (R61, R82)

What a command does is a function of the state apart from its stream: replacing the stream before or after it is the
same. -/

/-- `s` with another command stream. -/
def State.withStream (cmd : List Word) (s : State) : State := { s with cmd := cmd }

/-- A drained block whose state has another command stream. -/
def Drained.withStream (cmd : List Word) (r : Drained) : Drained := { r with state := r.state.withStream cmd }

section withStream

variable (cmd : List Word) (s : State)

@[simp] theorem withStream_cfg : (s.withStream cmd).cfg = s.cfg := rfl
@[simp] theorem withStream_fsBuf : (s.withStream cmd).fsBuf = s.fsBuf := rfl
@[simp] theorem withStream_receiving : (s.withStream cmd).receiving = s.receiving := rfl
@[simp] theorem withStream_cmdptr : (s.withStream cmd).cmdptr = s.cmdptr := rfl
@[simp] theorem withStream_cmd : (s.withStream cmd).cmd = cmd := rfl
@[simp] theorem withStream_closed : (s.withStream cmd).closed = s.closed := rfl

theorem lineDecode_withStream (p : Bit) :
    lineDecode p (s.withStream cmd) = ((lineDecode p s).1, (lineDecode p s).2.withStream cmd) := by
  rcases variant_cases s.cfg with h | h
  · rw [lineDecode_standard h, lineDecode_standard (by exact h)]
  · rw [lineDecode_nrzi h, lineDecode_nrzi (by exact h)]
    rfl

theorem receiveFrame_withStream (f : Frame) :
    receiveFrame f (s.withStream cmd) =
      ⟨(receiveFrame f s).bit, (receiveFrame f s).byte, (receiveFrame f s).next.withStream cmd⟩ := by
  simp only [receiveFrame_eq, State.withStream]

theorem assertReceiving_withStream : (s.withStream cmd).assertReceiving = s.assertReceiving.withStream cmd := by
  cases h : s.receiving
  · simp [State.assertReceiving, h, State.emit, State.withStream]
  · simp [State.assertReceiving, h]

end withStream

/-- A delivery that does the same whatever the command stream. -/
def Deliver.IgnoresStream (d : Deliver) : Prop :=
  ∀ cmd f s, d f (State.withStream cmd s) = ((d f s).1.withStream cmd, (d f s).2)

theorem deliverAligned_ignoresStream : Deliver.IgnoresStream deliverAligned := fun _ _ _ => rfl

theorem deliverReceived_ignoresStream : Deliver.IgnoresStream deliverReceived := fun cmd f s => by
  rw [deliverReceived, receiveFrame_withStream]
  rfl

section synchronizer

variable {d : Deliver} (hd : d.IgnoresStream) (cmd : List Word)
include hd

theorem drainOne_withStream (r : Drained) : drainOne d (r.withStream cmd) = (drainOne d r).withStream cmd := by
  have hdrop : ∀ (n : Nat) (s : State), (s.withStream cmd).dropFrame n = (s.dropFrame n).withStream cmd :=
    fun _ _ => rfl
  simp only [drainOne, Drained.withStream, assertReceiving_withStream, hdrop, hd cmd]
  rfl

theorem emitFrames_withStream (n : Nat) (r : Drained) :
    emitFrames d n (r.withStream cmd) = (emitFrames d n r).withStream cmd := by
  induction n generalizing r with
  | zero => rfl
  | succ n ih =>
    rcases Nat.lt_or_ge r.state.fsBuf.length r.state.cfg.frameSize with h | h
    · rw [emitFrames_stop h, emitFrames_stop (by exact h)]
    · rw [emitFrames_pass h, emitFrames_pass (by exact h), drainOne_withStream hd, ih]

theorem syncBlock_withStream (xs : List Sample) (s : State) :
    syncBlock d xs (s.withStream cmd) = (syncBlock d xs s).withStream cmd := by
  have hpush : ((s.withStream cmd).pushBlock xs).strip = (s.pushBlock xs).strip.withStream cmd := rfl
  simp only [syncBlock, hpush, withStream_cfg, withStream_fsBuf]
  set t := (s.pushBlock xs).strip
  split
  · exact congrArg leaving (emitFrames_withStream hd cmd t.fsBuf.length ⟨{ t with fsState := .emitting }, 0, 0⟩)
  · rfl

end synchronizer

/-- A meaning that does the same whatever the command stream. -/
def IgnoresStream (op : State → Result) : Prop :=
  ∀ s t, op s = .next t → ∀ cmd, op (s.withStream cmd) = .next (t.withStream cmd)

theorem IgnoresStream.complete {n : Nat} {v : State → Half} {g : State → State}
    (hv : ∀ cmd s, v (s.withStream cmd) = v s) (hg : ∀ cmd s, g (s.withStream cmd) = (g s).withStream cmd) :
    IgnoresStream fun s => complete n (v s) (g s) := by
  rintro s _ ⟨⟩ cmd
  simp only [hv, hg]
  rfl

theorem IgnoresStream.raise {st : Stat} {n : Nat} {v : State → Half} (hv : ∀ cmd s, v (s.withStream cmd) = v s) :
    IgnoresStream fun s => raise st (v s) n s := by
  rintro s _ ⟨⟩ cmd
  simp only [hv]
  rfl

theorem IgnoresStream.ite {c : State → Bool} {a b : State → Result} (hc : ∀ cmd s, c (s.withStream cmd) = c s)
    (ha : IgnoresStream a) (hb : IgnoresStream b) : IgnoresStream fun s => if c s then a s else b s := by
  intro s t h cmd
  simp only [hc] at h ⊢
  cases hcs : c s <;> simp only [hcs] at h ⊢
  · exact hb s t h cmd
  · exact ha s t h cmd

/-- A block operation ignores the stream when its delivery does; `v` is its response's value (R187, R188). -/
theorem block_ignoresStream {d : Deliver} (hd : d.IgnoresStream) (pay : List Word) (v : Nat → Nat → Half) :
    IgnoresStream fun s =>
      if s.admits pay.length then
        if payloadClean pay then
          let r := syncBlock d (samples pay) s
          complete (1 + pay.length) (v r.frames r.bytes) r.state
        else raise .illegalField 1#16 (1 + pay.length) s
      else raiseBadLength (1 + pay.length) s :=
  .ite (fun _ _ => rfl)
    (.ite (fun _ _ => rfl)
      (.complete (fun cmd s => by rw [syncBlock_withStream hd]; rfl)
        (fun cmd s => by rw [syncBlock_withStream hd]; rfl))
      (.raise fun _ _ => rfl))
    (.raise fun _ _ => rfl)

/-- A transmit-side command does the same in every state with the same configuration and `ENC_POL`. -/
theorem transmitSide_ignoresStream {i : Instr} (hi : TransmitSide i) : IgnoresStream (exec i) := by
  intro s t h cmd
  obtain ⟨e, frames, w, htx⟩ := exec_transmitSide hi s.cfg s.encPol
  rw [htx s rfl rfl] at h
  cases h
  exact htx (s.withStream cmd) rfl rfl

/-- What a command does, it does whatever the command stream: it has been fetched (R61). -/
theorem exec_ignoresStream (i : Instr) : IgnoresStream (exec i) := by
  cases i with
  | synth y => exact transmitSide_ignoresStream (.inl ⟨y, rfl⟩)
  | lenc b => exact transmitSide_ignoresStream (.inr (.inl ⟨b, rfl⟩))
  | txbit b => exact transmitSide_ignoresStream (.inr (.inr (.inl ⟨b, rfl⟩)))
  | txbyte v => exact transmitSide_ignoresStream (.inr (.inr (.inr ⟨v, rfl⟩)))
  | detect pay => exact .ite (fun _ _ => rfl) (.complete (fun _ _ => rfl) fun _ _ => rfl) (.raise fun _ _ => rfl)
  | ldec p =>
    exact .complete (fun cmd s => by rw [lineDecode_withStream]) fun cmd s => by rw [lineDecode_withStream]
  | rxframe pay =>
    exact .ite (fun _ _ => rfl)
      (.complete (fun cmd s => by rw [receiveFrame_withStream]) fun cmd s => by rw [receiveFrame_withStream])
      (.raise fun _ _ => rfl)
  | spush pay => exact block_ignoresStream deliverAligned_ignoresStream pay fun frames _ => BitVec.ofNat 16 frames
  | rxpush pay => exact block_ignoresStream deliverReceived_ignoresStream pay fun frames bytes => packVal bytes frames
  | henc n => exact .complete (fun _ _ => rfl) fun _ _ => rfl
  | hdec c =>
    intro s t h cmd
    simp only [exec, execHdec] at h ⊢
    cases hn : hammingDecode c <;> rw [hn] at h <;> cases h <;> rfl
  | rdreg idx =>
    intro s t h cmd
    have hcsr : csr idx (s.withStream cmd) = csr idx s := rfl
    simp only [exec, execRdreg, hcsr] at h ⊢
    cases hn : csr idx s <;> rw [hn] at h <;> cases h <;> rfl
  | sreset => exact .complete (fun _ _ => rfl) fun _ _ => rfl

/-- What is done where no command runs ignores the stream too, once that is known. -/
theorem rejected_ignoresStream (e : DecodeError) : IgnoresStream (rejected e) := by
  cases e with
  | noWord => rintro s _ ⟨⟩ cmd; rfl
  | incomplete => exact .ite (fun _ _ => rfl) (fun _ _ h => nomatch h) fun _ _ h cmd => by cases h; rfl
  | illegalOpcode code => exact .raise fun _ _ => rfl
  | illegalField n => exact .raise fun _ _ => rfl

/-- A step with another stream from which the same command, or the same error, is fetched. -/
theorem step_withStream {s t : State} {cmd : List Word} (h : step s = .next t)
    (hf : (fetch (s.withStream cmd)).map Prod.fst = (fetch s).map Prod.fst) :
    step (s.withStream cmd) = .next (t.withStream cmd) := by
  obtain ⟨hv, -⟩ := step_cases h
  simp only [step, withStream_cfg, hv, if_true] at h ⊢
  rcases hs : fetch s with e | ⟨i, r⟩ <;> rcases hs' : fetch (s.withStream cmd) with e' | ⟨i', r'⟩ <;>
    rw [hs, hs'] at hf
  · obtain rfl : e' = e := Except.error.inj hf
    rw [hs] at h
    exact rejected_ignoresStream e' s t h cmd
  · cases hf
  · cases hf
  · obtain rfl : i' = i := Except.ok.inj hf
    rw [hs] at h
    exact exec_ignoresStream i' s t h cmd

/-- Words after a whole command do not change what is decoded, and are among the words left (R61, R94). -/
theorem decode_append {c : Cfg} {w : Word} {rest : List Word} (hl : paylen c w ≤ rest.length) (ws : List Word) :
    decode c (w :: rest ++ ws) = (decode c (w :: rest)).map fun p => (p.1, p.2 ++ ws) := by
  have hl' : paylen c w ≤ (rest ++ ws).length := by rw [List.length_append]; omega
  rw [List.cons_append, decode, decode, if_neg (Nat.not_lt.mpr hl), if_neg (Nat.not_lt.mpr hl'),
    List.take_append_of_le_length hl, List.drop_append_of_le_length hl]
  split
  · rfl
  · split <;> rfl

theorem feed_of_open {s : State} (h : s.closed = false) (ws : List Word) : s.feed ws = s.withStream (s.cmd ++ ws) := by
  simp [State.feed, h, State.withStream]

theorem feed_of_closed {s : State} (h : s.closed = true) (ws : List Word) : s.feed ws = s := by
  simp [State.feed, h]

/-- Settles O12: a closed stream takes no words; in an open one the words appended stand after the whole command, so
the same command or error is fetched, and what it does ignores the stream. -/
theorem laterWordsChangeNothing : Obligations.LaterWordsChangeNothing := by
  unfold Obligations.LaterWordsChangeNothing
  intro s t w rest ws hw hl h
  obtain ⟨-, hcmd, hclosed, -⟩ := traceOnlyGrows s t h
  cases hc : s.closed with
  | true => rwa [feed_of_closed hc, feed_of_closed (hclosed.trans hc)]
  | false =>
    have hinside : s.cmdptr ≤ s.cmd.length := by
      by_contra hout
      rw [List.drop_eq_nil_of_le (by omega)] at hw
      cases hw
    rw [feed_of_open hc, feed_of_open (hclosed.trans hc), hcmd]
    refine step_withStream h ?_
    simp only [fetch, withStream_cfg, withStream_cmd, withStream_cmdptr]
    rw [List.drop_append_of_le_length hinside, hw, decode_append hl]
    cases decode s.cfg (w :: rest) <;> rfl

end Sys2Proof.Machine


/-! PROOF. The statements of 30_encoding.md: decoding inverts encoding and back, the rows of the opcode table, the
assembler, and what a step does where there is no command to run. -/

namespace Sys2Proof.Machine

/-! ### Encoding and decoding (R90 to R94) -/

/-- Settles O1: the words of a command are legal, and its operand and payload are read back from them. -/
theorem decodeAfterEncode : Obligations.DecodeAfterEncode := by
  unfold Obligations.DecodeAfterEncode
  intro c i rest hwf
  exact decode_encode hwf rest

/-- A value whose bits from `k` on are zero is its low `k` bits. -/
theorem setWidth_lowBits {m : Half} {k : Nat} (h : m &&& (BitVec.allOnes 16 <<< k) = 0#16) :
    (m.extractLsb' 0 k).setWidth 16 = m := by
  apply BitVec.eq_of_getLsbD_eq
  intro j hj
  by_cases hlow : j < k
  · simp [hj, hlow]
  · have hbit := congrArg (BitVec.getLsbD · j) h
    simp only [BitVec.getLsbD_and, BitVec.getLsbD_shiftLeft, BitVec.getLsbD_allOnes, BitVec.getLsbD_zero] at hbit
    simpa [hj, hlow, show j - k < 16 by omega] using hbit.symm

/-- The bit an operation reads from `IMM` is its low bit as a field. -/
theorem bitHalf_getLsbD_zero (m : Half) : bitHalf (m.getLsbD 0) = (m.extractLsb' 0 1).setWidth 16 := by
  rw [bitHalf]
  congr 1
  apply BitVec.eq_of_getLsbD_eq
  intro j hj
  obtain rfl : j = 0 := by omega
  simp

/-- An operation's command is encoded with the `IMM` it was read from: its must-be-0 bits are zero, and the length of
a block's payload is `IMM` itself (R93, R94). -/
theorem imm_command {c : Cfg} {w : Word} {op : Op} {pay : List Word} (ho : opc w = op.code)
    (hm : imm w &&& op.immZero = 0#16) (hp : pay.length = paylen c w) : (op.command (imm w) pay).imm = imm w := by
  have hblock (hop : op = .spush ∨ op = .rxpush) : BitVec.ofNat 16 pay.length = imm w := by
    have hlen : pay.length = (imm w).toNat := by
      rw [hp, paylen, ho]
      rcases hop with rfl | rfl <;> simp [Op.code]
    rw [hlen, BitVec.ofNat_toNat, BitVec.setWidth_eq]
  cases op with
  | synth | lenc | txbit | ldec => exact (bitHalf_getLsbD_zero _).trans (setWidth_lowBits hm)
  | txbyte | hdec | rdreg | henc => exact setWidth_lowBits hm
  | spush => exact hblock (.inl rfl)
  | rxpush => exact hblock (.inr rfl)
  | detect | rxframe | sreset => exact (BitVec.and_allOnes.symm.trans hm).symm

/-- An operation's command with as many payload words as its command word owns is well-formed (R94). -/
theorem wf_command {c : Cfg} {w : Word} {op : Op} {pay : List Word} (ho : opc w = op.code)
    (hp : pay.length = paylen c w) : (op.command (imm w) pay).wf c = true := by
  have himm := (imm w).isLt
  rw [paylen, ho] at hp
  cases op with
  | detect | rxframe => simpa [Op.code, Op.command, Instr.wf, framePayloadOk] using hp
  | spush | rxpush =>
    have hlen : pay.length = (imm w).toNat := by simpa [Op.code] using hp
    simp only [Op.command, Instr.wf, blockPayloadOk, decide_eq_true_eq]
    omega
  | synth | lenc | txbit | txbyte | ldec | henc | hdec | rdreg | sreset => rfl

/-- An operation's command keeps the payload it is given, where its command word owns that many words (R94). -/
theorem payload_command {c : Cfg} {w : Word} {op : Op} {pay : List Word} (ho : opc w = op.code)
    (hp : pay.length = paylen c w) : (op.command (imm w) pay).payload = pay := by
  cases op with
  | detect | rxframe | spush | rxpush => rfl
  | synth | lenc | txbit | txbyte | ldec | henc | hdec | rdreg | sreset =>
    rw [paylen, ho] at hp
    exact (List.eq_nil_of_length_eq_zero hp).symm

/-- Settles O2: the command word is put together again from its operation code and `IMM`, its `RSV` being 0, and the
payload is what was taken from the words. -/
theorem encodeAfterDecode : Obligations.EncodeAfterDecode := by
  unfold Obligations.EncodeAfterDecode
  intro c ws rest i h
  obtain ⟨w, tail, op, rfl, hl, ho, hr, hm, rfl, rfl⟩ := decode_ok h
  have hp : (tail.take (paylen c w)).length = paylen c w := List.length_take_of_le hl
  refine ⟨wf_command ho hp, ?_⟩
  rw [encode, command_op, imm_command ho hm hp, payload_command ho hp, ← ho, commandWord_fields hr, List.cons_append,
    List.take_append_drop]

/-- Every operation has a row of the opcode table (R92). -/
theorem exists_row (op : Op) : ∃ row ∈ opcodeTable, row.op = op := by
  cases op <;> simp [opcodeTable]

/-- Settles O3: a word is of a row exactly when its fields are legal for the row's operation, which is when it
decodes. -/
theorem tableRowsAreTheLegalWords : Obligations.TableRowsAreTheLegalWords := by
  unfold Obligations.TableRowsAreTheLegalWords
  intro c w rest hl
  constructor
  · intro row hrow hhit
    obtain ⟨ho, hr, hm⟩ := (row_hits_iff hrow w).mp hhit
    exact ⟨_, decode_legal hl ho hr hm, command_op _ _ _⟩
  · intro i r h
    obtain ⟨w', tail, op, hw, -, ho, hr, hm, rfl, -⟩ := decode_ok h
    obtain ⟨rfl, rfl⟩ := List.cons.inj hw
    obtain ⟨row, hrow, rfl⟩ := exists_row op
    exact ⟨row, hrow, (command_op _ _ _).symm, (row_hits_iff hrow w).mpr ⟨ho, hr, hm⟩⟩

/-- Settles O4: the decoder is evaluated on the words. -/
theorem writtenWordsDecode : Obligations.WrittenWordsDecode := by
  unfold Obligations.WrittenWordsDecode
  decide +kernel

/-! ### The assembler (R98, R99) -/

/-- A program of one line is that line's words. -/
theorem assemble_singleton (names : List (String × List Sample)) (line : AsmLine) :
    assemble names [line] = line.words names := by
  cases h : line.words names <;> simp [assemble, h]

/-- A list of hexadecimal samples is those samples (R98). -/
theorem value_hexLits (names : List (String × List Sample)) (xs : List Sample) :
    (SampleExpr.lits (xs.map .hex)).value names = some xs := by
  rw [SampleExpr.value]
  induction xs with
  | nil => rfl
  | cons x xs ih => simp [SampleLit.value, ih]

/-- Payload words with no reserved bit set are the payload words of their samples (R91). -/
theorem map_payloadWord_samples {pay : List Word} (h : payloadClean pay = true) :
    (samples pay).map payloadWord = pay := by
  have hword : ∀ w ∈ pay, payloadWord (smp w) = w := fun w hw =>
    payloadWord_smp (of_decide_eq_true (List.all_eq_true.mp h w hw))
  calc (samples pay).map payloadWord
      = pay.map (fun w => payloadWord (smp w)) := List.map_map
    _ = pay.map id := List.map_congr_left hword
    _ = pay := List.map_id pay

/-- A command's `IMM`, written as its operand, is the `IMM` of its line: for a block it is the list's length (R98). -/
theorem lineImm_imm {i : Instr} (h : i.payload.length ≤ 65535) :
    lineImm i.op (some i.imm.toNat) i.payload.length = some i.imm.toNat := by
  cases i with
  | spush pay | rxpush pay => exact if_pos (Nat.mod_eq_of_lt (Nat.lt_succ_of_le h))
  | synth | lenc | txbit | txbyte | detect | ldec | rxframe | henc | hdec | rdreg | sreset => rfl

/-- The line of a command: its `IMM` written as the operand, and its payload's samples in hexadecimal. -/
def lineOf (i : Instr) : AsmLine := .command i.op (some i.imm.toNat) (.lits ((samples i.payload).map .hex))

/-- The line of a command with a clean payload assembles to its words (R98). -/
theorem words_lineOf {i : Instr} (hclean : payloadClean i.payload = true) (hlen : i.payload.length ≤ 65535) :
    (lineOf i).words [] = some (encode i) := by
  have hfits : i.imm.toNat ≤ 65535 := Nat.le_of_lt_succ i.imm.isLt
  simp [lineOf, AsmLine.words, value_hexLits, lineImm_imm hlen, hfits, map_payloadWord_samples hclean, encode]

/-- A command word is its operation code's bits and its `IMM`, or'ed (R90). -/
theorem commandWord_eq_or (code : Byte) (m : Half) : commandWord code m = commandWord code 0#16 ||| m.setWidth 32 := by
  apply BitVec.eq_of_getLsbD_eq
  intro j hj
  rw [BitVec.getLsbD_or, commandWord, commandWord, getLsbD_threeFields, getLsbD_threeFields]
  by_cases h : j < 16
  · simp [h, hj]
  · simp [h, BitVec.getLsbD_of_ge m j (by omega)]

/-- The command word of an operand written as a number (R90). -/
theorem commandWord_ofNat (code : Byte) {n : Nat} (h : n ≤ 65535) :
    commandWord code (BitVec.ofNat 16 n) = commandWord code 0#16 ||| BitVec.ofNat 32 n := by
  rw [commandWord_eq_or, BitVec.setWidth_ofNat_of_le_of_lt (by decide) (Nat.lt_succ_of_le h)]

/-- The words of a `TXBYTE` (R92, R93). -/
theorem encode_txbyte (b : Byte) : encode (.txbyte b) = [0x04000000#32 ||| b.setWidth 32] := by
  have hword := commandWord_ofNat 0x04#8 (show b.toNat ≤ 65535 by omega)
  rw [BitVec.ofNat_toNat, BitVec.ofNat_toNat] at hword
  exact congrArg (fun w => [w]) hword

/-- A block's command word and `len` zero samples (R91, R99). -/
theorem silence_words (code : Byte) {len : Nat} (h : len ≤ 65535) :
    commandWord code (BitVec.ofNat 16 (List.replicate len (payloadWord 0#16)).length) ::
        List.replicate len (payloadWord 0#16) =
      (commandWord code 0#16 ||| BitVec.ofNat 32 len) :: List.replicate len 0x00000000#32 := by
  rw [List.length_replicate, commandWord_ofNat code h]
  rfl

/-- Settles O13: a command is the line of its `IMM` and samples; a pseudo-instruction's expansion is encoded word by
word. -/
theorem cleanCommandsAssemble : Obligations.CleanCommandsAssemble := by
  unfold Obligations.CleanCommandsAssemble
  refine ⟨fun c i _ hclean hlen => ⟨lineOf i, ?_⟩, fun bytes => ?_, fun len hlen => ⟨?_, ?_⟩⟩
  · rw [assemble_singleton, words_lineOf hclean hlen]
  · rw [assemble_singleton, AsmLine.words, expandTxmsg, List.flatMap_map]
    simp only [encode_txbyte]
    rw [← List.map_eq_flatMap]
  · rw [assemble_singleton, AsmLine.words, if_pos hlen, expandSpushz, List.flatMap_singleton]
    exact congrArg some (silence_words 0x0C#8 hlen)
  · rw [assemble_singleton, AsmLine.words, if_pos hlen, expandRxpushz, List.flatMap_singleton]
    exact congrArg some (silence_words 0x0D#8 hlen)

/-! ### Where no command runs (R102, R254) -/

/-- Where the words at `CMDPTR` give no command (R95, R102). -/
theorem step_of_rejected {s : State} {e : DecodeError} (hv : s.cfg.valid = true) (hf : fetch s = .error e) :
    step s = rejected e s := by
  simp [step, hv, hf]

/-- A command whose payload is not all there (R102). -/
theorem decode_of_incomplete {c : Cfg} {w : Word} {rest : List Word} (h : rest.length < paylen c w) :
    decode c (w :: rest) = .error .incomplete := if_pos h

/-- The step at a command whose payload is not all there (R102). -/
theorem step_of_incomplete {s : State} {w : Word} {rest : List Word} (hv : s.cfg.valid = true)
    (hw : s.cmd.drop s.cmdptr = w :: rest) (hl : rest.length < paylen s.cfg w) : step s = rejected .incomplete s :=
  step_of_rejected hv (by rw [fetch, hw, decode_of_incomplete hl])

/-- Settles O6: no word and, on an open stream, an incomplete command are rejected by waiting. -/
theorem waitingChangesNothing : Obligations.WaitingChangesNothing := by
  unfold Obligations.WaitingChangesNothing
  intro s hv
  constructor
  · intro hend
    have hf : fetch s = .error .noWord := by rw [fetch, List.drop_eq_nil_of_le hend, decode]
    rw [step_of_rejected hv hf, rejected]
  · intro w rest hw hl hopen
    rw [step_of_incomplete hv hw hl]
    simp [rejected, hopen]

/-- Settles O7: on a closed stream an incomplete command is the fault. -/
theorem closedInsideCommandIsStuck : Obligations.ClosedInsideCommandIsStuck := by
  unfold Obligations.ClosedInsideCommandIsStuck
  intro s w rest hv hclosed hw hl
  rw [step_of_incomplete hv hw hl, rejected, if_pos hclosed]

/-- Settles O9: the fields are checked once the payload is present, and before anything that reads the state. -/
theorem headerFieldErrorAnswered : Obligations.HeaderFieldErrorAnswered := by
  unfold Obligations.HeaderFieldErrorAnswered
  intro s w rest op hv hw hl ho hbad
  have hf : fetch s = .error (.illegalField (paylen s.cfg w)) := by
    rw [fetch, hw, decode_of_badField hl (ofCode_eq_some.mpr ho)]
    rintro ⟨hr, hm⟩
    exact hbad.elim (· hr) (· hm)
  rw [step_of_rejected hv hf]
  rfl

/-! ### The response word (R96, R97) -/

/-- Settles O23: the fields of a response word are read back, and the five codes are evaluated. -/
theorem responseWordLayout : Obligations.ResponseWordLayout := by
  unfold Obligations.ResponseWordLayout
  refine ⟨fun st v => ⟨respStat_responseWord st v, responseWord_reserved st v, respVal_responseWord st v⟩,
    rfl, rfl, rfl, rfl, rfl, fun st => ?_⟩
  cases st <;> decide

end Sys2Proof.Machine


/-! PROOF. The statements of 40_tone_synth.md: the tone ROM, the transmit path, and a message sent over a ready link. -/

namespace Sys2Proof.Machine

/-! ### The tone ROM is the rounded cosine (R120, R121) -/

theorem rnd_of_nonneg {x : ℝ} (h : 0 ≤ x) : rnd x = ⌊x + 1 / 2⌋ := by
  rcases h.eq_or_lt with rfl | hpos
  · norm_num [rnd]
  · rw [rnd, sign_pos hpos, abs_of_pos hpos, SignType.coe_one, one_mul]

theorem rnd_neg (x : ℝ) : rnd (-x) = -rnd x := by
  rw [rnd, rnd, Left.sign_neg, abs_neg, SignType.coe_neg, neg_mul]

/-- The cosine in the first quarter turn is not negative. -/
theorem cos_nonneg_of_quarter {h d : Nat} (hd : 0 < d) (hh : 2 * h ≤ d) : 0 ≤ Real.cos (Real.pi * h / d) := by
  have hdR : (0 : ℝ) < d := by exact_mod_cast hd
  have hhR : (2 : ℝ) * h ≤ d := by exact_mod_cast hh
  apply Real.cos_nonneg_of_neg_pi_div_two_le_of_le
  · have hangle : 0 ≤ Real.pi * h / d := by positivity
    linarith [Real.pi_pos]
  · rw [div_le_div_iff₀ hdR two_pos]
    nlinarith [Real.pi_pos]

theorem nearestCos_eq_rnd {amp h d : Nat} (ha : amp < 2 ^ 15) (hd : 0 < d) (hh : 2 * h ≤ d) :
    (nearestCos amp h d : ℤ) = rnd (amp * Real.cos (Real.pi * h / d)) := by
  rw [nearestCos_eq ha hd hh, rnd_of_nonneg (mul_nonneg (Nat.cast_nonneg _) (cos_nonneg_of_quarter hd hh))]

/-- Over the half turn the model's sample is the rounded product: the second quarter is the first, mirrored and
negated. -/
theorem roundedCos_eq_rnd {amp h d : Nat} (ha : amp < 2 ^ 15) (hd : 0 < d) (hh : h ≤ d) :
    roundedCos amp h d = rnd (amp * Real.cos (Real.pi * h / d)) := by
  unfold roundedCos
  split
  case isTrue hquarter => exact nearestCos_eq_rnd ha hd hquarter
  case isFalse hquarter =>
    have hdR : (d : ℝ) ≠ 0 := by exact_mod_cast hd.ne'
    have hmirror : Real.pi * (d - h : ℕ) / d = Real.pi - Real.pi * h / d := by
      rw [Nat.cast_sub hh]
      field_simp
    rw [nearestCos_eq_rnd ha hd (by omega), hmirror, Real.cos_pi_sub, mul_neg, rnd_neg, neg_neg]

/-- A phase and the same phase folded into a half turn have the same cosine (R122 (c)). -/
theorem cos_folded_phase {k d : Nat} (hd : 0 < d) :
    Real.cos (Real.pi * (2 * min (k % d) (d - k % d) : ℕ) / d) = Real.cos (2 * Real.pi * k / d) := by
  have hdR : (d : ℝ) ≠ 0 := by exact_mod_cast hd.ne'
  have hlt := Nat.mod_lt k hd
  have hturns : 2 * Real.pi * k / d = 2 * Real.pi * (k % d : ℕ) / d + (k / d : ℕ) * (2 * Real.pi) := by
    have hk : (k : ℝ) = (k % d : ℕ) + d * (k / d : ℕ) := by exact_mod_cast (Nat.mod_add_div k d).symm
    rw [hk]
    field_simp
  rw [hturns, Real.cos_add_nat_mul_two_pi]
  rcases min_choice (k % d) (d - k % d) with hmin | hmin
  · rw [hmin]
    push_cast
    ring_nf
  · have hmirror : Real.pi * (2 * (d - k % d) : ℕ) / d = 2 * Real.pi - 2 * Real.pi * (k % d : ℕ) / d := by
      rw [Nat.cast_mul, Nat.cast_sub hlt.le, Nat.cast_two]
      field_simp
    rw [hmin, hmirror, Real.cos_two_pi_sub]

/-- Settles O26: the stored sample is the rounded product at the phase folded into a half turn. -/
theorem toneRomIsRoundedCosine : Obligations.ToneRomIsRoundedCosine := by
  unfold Obligations.ToneRomIsRoundedCosine
  intro c s n hc
  have hrate := sampleRate_pos_of_valid hc
  rw [toInt_tone hc, toneInt, roundedCos_eq_rnd (amp_lt_of_valid hc) hrate (by omega), cos_folded_phase hrate,
    Nat.cast_mul, ← mul_assoc]

/-! ### The tone ROM at the default tones (R123) -/

/-- The first quarter of `C40`, evaluated: the angle of its sample `j` is `j` fortieths of a turn. -/
theorem nearestCos_quarters40 :
    ∀ row ∈ quarters40, ∀ j ≤ 10, (nearestCos row.1 (2400 * j) 48000 : ℤ) = row.2.getD j 0 := by
  decide +kernel

/-- The samples of a half turn, by fortieths of a turn. -/
theorem roundedCos_quarters40 {row : Nat × List Int} (hrow : row ∈ quarters40) {j : Nat} (hj : j ≤ 20) :
    roundedCos row.1 (2400 * j) 48000 = if j ≤ 10 then row.2.getD j 0 else -row.2.getD (20 - j) 0 := by
  have hquarter := nearestCos_quarters40 row hrow
  unfold roundedCos
  by_cases h : j ≤ 10
  · rw [if_pos (by omega), if_pos h, hquarter j h]
  · rw [if_neg (by omega), if_neg h, ← hquarter (20 - j) (by omega),
      show 48000 - 2400 * j = 2400 * (20 - j) by omega]

/-- `C40` by the symmetries of R123: it is even, as the cosine is, so it depends on the phase folded into a half turn. -/
theorem c40_eq_folded {row : Nat × List Int} (hrow : row ∈ quarters40) {k : Nat} (hk : k < 40) :
    c40 row.2 k =
      if min k (40 - k) ≤ 10 then row.2.getD (min k (40 - k)) 0 else -row.2.getD (20 - min k (40 - k)) 0 := by
  have hzero : row.2.getD 10 0 = 0 := by
    revert row
    decide
  unfold c40
  rcases Nat.lt_or_ge 20 k with h20 | h20
  · rw [min_eq_right (by omega), if_neg (by omega), if_neg (by omega)]
    rcases Nat.lt_trichotomy k 30 with h30 | rfl | h30
    · rw [if_pos h30.le, if_neg (by omega), show 20 - (40 - k) = k - 20 by omega]
    · exact (congrArg Neg.neg hzero).trans (neg_zero.trans hzero.symm)
    · rw [if_neg (by omega), if_pos (by omega)]
  · rw [min_eq_left (by omega), if_pos h20]

/-- A phase of `k` fortieths of a turn has sample `k` of `C40`. -/
theorem toneInt_fortieth {c : Cfg} {s : Bit} {n k : Nat} {row : Nat × List Int} (hrow : row ∈ quarters40)
    (hamp : c.amp = row.1) (hrate : c.sampleRate = 48000) (hk : k < 40) (hphase : c.toneFreq s * n % 48000 = 1200 * k) :
    toneInt c s n = c40 row.2 k := by
  have hfold : 2 * min (1200 * k) (48000 - 1200 * k) = 2400 * min k (40 - k) := by omega
  rw [toneInt, hrate, hphase, hfold, hamp, roundedCos_quarters40 hrow (by omega), c40_eq_folded hrow hk]

/-- Settles O28: a mark sample advances the phase by one fortieth of a turn and a space sample by two. -/
theorem toneContentsAtDefaultTones : Obligations.ToneContentsAtDefaultTones := by
  unfold Obligations.ToneContentsAtDefaultTones
  intro c n hrate hmark hspace row hrow hamp
  have hexact : ∀ s, (tone c s n).toInt = toneInt c s n := fun s => by
    have hrange : ∀ row ∈ quarters40, 1 ≤ row.1 ∧ row.1 ≤ 32767 := by decide
    obtain ⟨hmin, hmax⟩ := hrange row hrow
    have hvalid : ({ c with baud := 2400 } : Cfg).valid = true := by
      simp [Cfg.valid, Cfg.frameSize, hrate, hmark, hspace, hamp, hmin, hmax]
    exact toInt_tone hvalid s n
  rw [hexact, hexact]
  constructor
  · exact toneInt_fortieth hrow hamp hrate (by omega) (by rw [Cfg.toneFreq, if_pos rfl, hmark]; omega)
  · exact toneInt_fortieth hrow hamp hrate (by omega) (by rw [Cfg.toneFreq, if_neg (by decide), hspace]; omega)

/-! ### Symbols sent for logical bits (R126, R127, R141) -/

/-- The symbols the encoder gives for logical bits, from `ENC_POL` at `pol`. -/
def sentSymbols (v : Variant) (pol : Bit) (bits : List Bit) : List Bit :=
  match v with
  | .standard => bits
  | .nrzi => nrziSymbols pol bits

/-- `ENC_POL` after encoding logical bits from `pol`. -/
def polAfter (v : Variant) (pol : Bit) (bits : List Bit) : Bit :=
  match v with
  | .standard => pol
  | .nrzi => (nrziSymbols pol bits).getLastD pol

theorem getLastD_append {α : Type} (l m : List α) (a : α) : (l ++ m).getLastD a = m.getLastD (l.getLastD a) := by
  simp [List.getLastD_eq_getLast?, List.getLast?_append]

theorem nrziSymbols_length (pol : Bit) (bits : List Bit) : (nrziSymbols pol bits).length = bits.length := by
  induction bits generalizing pol with
  | nil => rfl
  | cons b bits ih => simp [nrziSymbols, ih]

theorem nrziSymbols_append (pol : Bit) (as bs : List Bit) :
    nrziSymbols pol (as ++ bs) = nrziSymbols pol as ++ nrziSymbols ((nrziSymbols pol as).getLastD pol) bs := by
  induction as generalizing pol with
  | nil => rfl
  | cons a as ih => simp [nrziSymbols, ih, List.getLast?_cons]

/-- Each 1 flips the polarity (R141). -/
theorem nrziSymbols_getLastD (pol : Bit) (bits : List Bit) :
    (nrziSymbols pol bits).getLastD pol = (pol ^^ decide ((bits.map Bool.toNat).sum % 2 = 1)) := by
  induction bits generalizing pol with
  | nil => simp [nrziSymbols]
  | cons b bits ih =>
    rw [nrziSymbols, List.getLastD_cons, ih]
    cases b
    · simp
    · rcases Nat.mod_two_eq_zero_or_one (bits.map Bool.toNat).sum with h | h <;> simp [h, Nat.add_mod]

theorem sentSymbols_length (v : Variant) (pol : Bit) (bits : List Bit) :
    (sentSymbols v pol bits).length = bits.length := by
  cases v with
  | standard => rfl
  | nrzi => exact nrziSymbols_length pol bits

theorem sentSymbols_append (v : Variant) (pol : Bit) (as bs : List Bit) :
    sentSymbols v pol (as ++ bs) = sentSymbols v pol as ++ sentSymbols v (polAfter v pol as) bs := by
  cases v with
  | standard => rfl
  | nrzi => exact nrziSymbols_append pol as bs

theorem polAfter_append (v : Variant) (pol : Bit) (as bs : List Bit) :
    polAfter v pol (as ++ bs) = polAfter v (polAfter v pol as) bs := by
  cases v with
  | standard => rfl
  | nrzi =>
    simp only [polAfter, nrziSymbols_append, getLastD_append]

/-! ### Symbols as a response value (R125, R127) -/

/-- Shifting a symbol in at bit 0 doubles the value and adds the symbol. -/
theorem shiftLeft_or_bitHalf (n : Nat) (b : Bit) :
    (BitVec.ofNat 16 n <<< 1) ||| bitHalf b = BitVec.ofNat 16 (2 * n + b.toNat) := by
  have hb : bitHalf b = BitVec.ofNat 16 b.toNat := by cases b <;> rfl
  have hlow : b.toNat < 2 ^ 1 := b.toNat_lt
  have hhigh : n % 2 ^ 16 * 2 ^ 1 % 2 ^ 16 = 2 ^ 1 * (n % 2 ^ 15) := by omega
  apply BitVec.eq_of_toNat_eq
  rw [hb, BitVec.toNat_or, BitVec.toNat_shiftLeft, BitVec.toNat_ofNat, BitVec.toNat_ofNat, Nat.shiftLeft_eq, hhigh,
    Nat.mod_eq_of_lt (by omega : b.toNat < 2 ^ 16), ← Nat.two_pow_add_eq_or_of_lt hlow, BitVec.toNat_ofNat]
  omega

/-- Shifting symbols in at bit 0 is reading them as a number. -/
theorem foldl_shift_eq_bitsValue (bits : List Bit) (n : Nat) :
    bits.foldl (fun (v : Half) b => (v <<< 1) ||| bitHalf b) (BitVec.ofNat 16 n) =
      BitVec.ofNat 16 (bits.foldl (fun a b => 2 * a + b.toNat) n) := by
  induction bits generalizing n with
  | nil => rfl
  | cons b bits ih => rw [List.foldl_cons, List.foldl_cons, shiftLeft_or_bitHalf, ih]

theorem bitHalf_eq_bitsValue (b : Bit) : bitHalf b = BitVec.ofNat 16 (bitsValue [b]) := by
  cases b <;> rfl

/-- A byte's bits, most significant first, are the byte (R125). -/
theorem bitsValue_iterSymbols (v : Byte) : bitsValue (iterSymbols v) = v.toNat := by
  revert v
  decide

/-- The weight of a byte counts the bits it is sent as. -/
theorem weight_eq_sum_iterSymbols (v : Byte) : weight v = ((iterSymbols v).map Bool.toNat).sum := by
  simp only [weight, iterSymbols, List.range, List.range.loop, List.map_cons, List.map_nil, List.sum_cons, List.sum_nil]
  omega

/-! ### What the transmit commands do (R124, R126, R127) -/

/-- Sending bits, under either coding: the encoder's symbols are shifted into `v` and their frames are sent. -/
theorem sendBits_eq (bits : List Bit) (v : Half) (s : State) :
    sendBits bits v s =
      ((sentSymbols s.cfg.variant s.encPol bits).foldl (fun (v : Half) b => (v <<< 1) ||| bitHalf b) v,
        { s with
          encPol := polAfter s.cfg.variant s.encPol bits
          trace := s.trace ++ ((sentSymbols s.cfg.variant s.encPol bits).map (toneFrame s.cfg)).map Event.txs }) := by
  rcases variant_cases s.cfg with h | h
  · rw [sendBits_standard h, h, List.map_map]
    rfl
  · rw [sendBits_nrzi h, h, List.map_map]
    rfl

/-- `s` after one command that encodes and sends `bits`. -/
def afterBits (bits : List Bit) (s : State) : State :=
  transmitted (polAfter s.cfg.variant s.encPol bits)
    ((sentSymbols s.cfg.variant s.encPol bits).map (toneFrame s.cfg))
    (responseWord .ok (BitVec.ofNat 16 (bitsValue (sentSymbols s.cfg.variant s.encPol bits)))) s

theorem complete_sendBits (bits : List Bit) (s : State) :
    complete 1 (sendBits bits 0#16 s).1 (sendBits bits 0#16 s).2 = .next (afterBits bits s) := by
  rw [sendBits_eq, complete_transmitted, foldl_shift_eq_bitsValue _ 0]
  rfl

theorem exec_txbyte (v : Byte) (s : State) : exec (.txbyte v) s = .next (afterBits (iterSymbols v) s) :=
  complete_sendBits (iterSymbols v) s

theorem exec_txbit (b : Bit) (s : State) : exec (.txbit b) s = .next (afterBits [b] s) := by
  have hvalue : (sendBits [b] 0#16 s).1 = bitHalf (sendBit b s).1 := by simp [sendBits]
  rw [← complete_sendBits, hvalue]
  rfl

theorem exec_synth (y : Bit) (s : State) :
    exec (.synth y) s = .next (transmitted s.encPol [toneFrame s.cfg y] (responseWord .ok 1#16) s) := rfl

/-- Settles O30: the answer of `SYNTH` follows its one frame. -/
theorem synthSendsFrame : Obligations.SynthSendsFrame := by
  unfold Obligations.SynthSendsFrame
  intro y s
  rw [exec_synth, transmitted, List.append_assoc]
  rfl

/-- Settles O31: one bit's symbol, read off for each coding. -/
theorem txbitSendsSymbol : Obligations.TxbitSendsSymbol := by
  unfold Obligations.TxbitSendsSymbol
  intro b s
  constructor
  · intro h
    simp [exec_txbit, afterBits, transmitted, h, sentSymbols, polAfter, bitResponse, bitHalf_eq_bitsValue]
  · intro h
    simp [exec_txbit, afterBits, transmitted, h, sentSymbols, polAfter, nrziSymbols, bitResponse, bitHalf_eq_bitsValue]

/-- Settles O32: under `STANDARD` the symbols are the byte's bits, whose value is the byte. -/
theorem txbyteStandard : Obligations.TxbyteStandard := by
  unfold Obligations.TxbyteStandard
  intro v s h
  have hvalue : BitVec.ofNat 16 (bitsValue (iterSymbols v)) = v.setWidth 16 := by
    rw [bitsValue_iterSymbols, BitVec.ofNat_toNat]
  rw [exec_txbyte, afterBits, transmitted, h, sentSymbols, hvalue, List.map_map]
  rfl

/-- Settles O33: under `NRZI` each 1 bit flips the polarity once. -/
theorem txbyteNrzi : Obligations.TxbyteNrzi := by
  unfold Obligations.TxbyteNrzi
  intro v s h
  rw [exec_txbyte, afterBits, transmitted, h, sentSymbols, polAfter, nrziSymbols_getLastD, ← weight_eq_sum_iterSymbols,
    List.map_map]
  rfl

/-! ### Sequences of transmit commands (R127) -/

/-- From `s` to `t` the frames of `bits` were sent, with `n` responses: `ENC_POL` follows and no other register is
written. -/
structure Sent (bits : List Bit) (n : Nat) (s t : State) : Prop where
  cfg  : t.cfg = s.cfg
  data : t.data = { s.data with encPol := polAfter s.cfg.variant s.encPol bits }
  txs  : txsPort t.trace = txsPort s.trace ++ (sentSymbols s.cfg.variant s.encPol bits).map (toneFrame s.cfg)
  rsp  : (rspPort t.trace).length = (rspPort s.trace).length + n

theorem Sent.encPol {bits : List Bit} {n : Nat} {s t : State} (h : Sent bits n s t) :
    t.encPol = polAfter s.cfg.variant s.encPol bits := congrArg DataRegs.encPol h.data

theorem Sent.nil (s : State) : Sent [] 0 s s := by
  refine ⟨rfl, ?_, ?_, rfl⟩ <;> cases h : s.cfg.variant <;> simp [polAfter, sentSymbols, nrziSymbols, State.data]

/-- Bits sent one after another. -/
theorem Sent.trans {as bs : List Bit} {m n : Nat} {s t u : State} (h : Sent as m s t) (g : Sent bs n t u) :
    Sent (as ++ bs) (m + n) s u where
  cfg := g.cfg.trans h.cfg
  data := by rw [g.data, h.data, h.cfg, h.encPol, polAfter_append]
  txs := by rw [g.txs, h.txs, h.cfg, h.encPol, sentSymbols_append, List.map_append, List.append_assoc]
  rsp := by rw [g.rsp, h.rsp, Nat.add_assoc]

theorem sent_afterBits (bits : List Bit) (s : State) : Sent bits 1 s (afterBits bits s) where
  cfg := rfl
  data := rfl
  txs := by
    simp only [afterBits, transmitted, txsPort_append, ports_of_sent, ports_of_response, List.append_nil]
  rsp := by
    simp only [afterBits, transmitted, rspPort_append, ports_of_sent, ports_of_response, List.append_nil,
      List.length_append, List.length_singleton]

/-- A list of transmit commands sends the bits of one after those of the other, with a response each. -/
theorem execAll_sent {α : Type} {command : α → Instr} {bits : α → List Bit}
    (hcommand : ∀ a s, exec (command a) s = .next (afterBits (bits a) s)) (l : List α) (s : State) :
    ∃ t, execAll (l.map command) s = .next t ∧ Sent (l.flatMap bits) l.length s t := by
  induction l generalizing s with
  | nil => exact ⟨s, rfl, .nil s⟩
  | cons a l ih =>
    obtain ⟨t, ht, hsent⟩ := ih (afterBits (bits a) s)
    refine ⟨t, by rw [List.map_cons, execAll, hcommand]; exact ht, ?_⟩
    rw [List.flatMap_cons, List.length_cons, Nat.add_comm]
    exact (sent_afterBits (bits a) s).trans hsent

/-- Frames sent lengthen the sample stream by `FRAME_SIZE` samples each (R63). -/
theorem Sent.sampleStream_length {bits : List Bit} {n : Nat} {s t : State} (h : Sent bits n s t) :
    (sampleStream t.trace).length = (sampleStream s.trace).length + bits.length * s.cfg.frameSize := by
  simp [sampleStream, h.txs, List.length_flatten, Function.comp_def, sentSymbols_length]

/-- Settles O34: `TXBYTE` sends the eight bits with one response, and the eight `TXBIT` commands send them with one
each. -/
theorem txbyteIsEightTxbits : Obligations.TxbyteIsEightTxbits := by
  unfold Obligations.TxbyteIsEightTxbits
  intro v s
  have hbyte := sent_afterBits (iterSymbols v) s
  obtain ⟨u, hu, hbits⟩ := execAll_sent (bits := fun b => [b]) exec_txbit (iterSymbols v) s
  rw [List.flatMap_singleton', show (iterSymbols v).length = 8 from rfl] at hbits
  exact ⟨_, u, exec_txbyte v s, hu, hbyte.data.trans hbits.data.symm, hbyte.txs.trans hbits.txs.symm, hbyte.rsp,
    hbits.rsp, hbyte.sampleStream_length⟩

/-! ### Received frames as bits and bytes (R142, R145, R165) -/

/-- The receive path after one more logical bit. -/
def RxPath.shift (r : RxPath) (b : Bit) : RxPath :=
  ⟨r.decPol, shiftIn r.rxSr b, r.rxCnt + 1#3, r.bytes ++ if r.rxCnt = 7#3 then [shiftIn r.rxSr b] else []⟩

theorem foldl_shift_decPol (bits : List Bit) (r : RxPath) (p : Bit) :
    bits.foldl RxPath.shift { r with decPol := p } = { bits.foldl RxPath.shift r with decPol := p } := by
  induction bits generalizing r with
  | nil => rfl
  | cons b bits ih => exact ih (r.shift b)

/-- A frame detected as the symbol of `b`, sent from the receiver's own polarity, is received as `b`. -/
theorem frame_of_detected {c : Cfg} {f : Frame} {r : RxPath} {b : Bit}
    (h : [detect c f] = sentSymbols c.variant r.decPol [b]) :
    r.frame c f = { r.shift b with decPol := polAfter c.variant r.decPol [b] } := by
  rcases variant_cases c with hv | hv
  · have hdet : detect c f = b := by simpa [hv, sentSymbols] using h
    simp [RxPath.frame, RxPath.shift, rxBitOf, rxPolOf, hv, hdet, polAfter]
  · have hdet : detect c f = (b ^^ r.decPol) := by simpa [hv, sentSymbols, nrziSymbols] using h
    simp [RxPath.frame, RxPath.shift, rxBitOf, rxPolOf, hv, hdet, polAfter, nrziSymbols]

/-- THE DECODER INVERTS THE ENCODER (R145): frames detected as the symbols of `bits`, sent from the receiver's own
polarity, are received as `bits`, and the polarities end equal. -/
theorem foldl_frame_of_detected {c : Cfg} (bits : List Bit) (fs : List Frame) (r : RxPath)
    (h : fs.map (detect c) = sentSymbols c.variant r.decPol bits) :
    fs.foldl (RxPath.frame c) r =
      { bits.foldl RxPath.shift r with decPol := polAfter c.variant r.decPol bits } := by
  induction bits generalizing fs r with
  | nil =>
    have hlen := congrArg List.length h
    rw [List.length_map, sentSymbols_length, List.length_nil, List.length_eq_zero_iff] at hlen
    rcases variant_cases c with hv | hv <;> rw [hlen, hv] <;> rfl
  | cons b bits ih =>
    rw [← List.singleton_append, sentSymbols_append] at h
    obtain ⟨first, rest, rfl, hfirst, hrest⟩ := List.map_eq_append_iff.mp h
    obtain ⟨f, rfl⟩ : ∃ f, first = [f] := by
      rw [← List.length_eq_one_iff, ← List.length_map (detect c), hfirst, sentSymbols_length, List.length_singleton]
    rw [List.singleton_append, List.foldl_cons, frame_of_detected hfirst, ih rest _ hrest, foldl_shift_decPol,
      ← polAfter_append]
    rfl

theorem getLsbD_shiftIn (sr : Byte) (b : Bit) (i : Nat) :
    (shiftIn sr b).getLsbD i = if i = 0 then b else decide (i < 8) && sr.getLsbD (i - 1) := by
  change BitVec.getLsbD (w := 7 + 1) (sr.extractLsb' 0 7 ++ BitVec.ofBool b) i = _
  rw [BitVec.getLsbD_append]
  rcases Nat.eq_zero_or_pos i with rfl | h
  · simp
  · simp [show ¬ i < 1 by omega, show i ≠ 0 by omega, show i - 1 < 7 ↔ i < 8 by omega]

/-- Eight bits from a byte boundary complete their byte (R165). -/
theorem foldl_shift_iterSymbols (v : Byte) (r : RxPath) (h : r.rxCnt = 0#3) :
    (iterSymbols v).foldl RxPath.shift r = ⟨r.decPol, v, 0#3, r.bytes ++ [v]⟩ := by
  obtain ⟨pol, sr, cnt, bytes⟩ := r
  obtain rfl : cnt = 0#3 := h
  have hbyte : (iterSymbols v).foldl shiftIn sr = v := by
    apply BitVec.eq_of_getLsbD_eq
    intro i hi
    simp only [iterSymbols, List.foldl_cons, List.foldl_nil, getLsbD_shiftIn]
    interval_cases i <;> simp
  simp only [iterSymbols, List.foldl_cons, List.foldl_nil] at hbyte
  simp only [iterSymbols, RxPath.shift, List.foldl_cons, List.foldl_nil, hbyte]
  simp

/-- A message's bits from a byte boundary complete its bytes. -/
theorem foldl_shift_message (message : List Byte) (r : RxPath) (h : r.rxCnt = 0#3) :
    ∃ sr, (message.flatMap iterSymbols).foldl RxPath.shift r = ⟨r.decPol, sr, 0#3, r.bytes ++ message⟩ := by
  induction message generalizing r with
  | nil => exact ⟨r.rxSr, by simp [← h]⟩
  | cons v message ih =>
    obtain ⟨sr, hsr⟩ := ih ⟨r.decPol, v, 0#3, r.bytes ++ [v]⟩ rfl
    refine ⟨sr, ?_⟩
    rw [List.flatMap_cons, List.foldl_append, foldl_shift_iterSymbols v r h, hsr, List.append_assoc,
      List.singleton_append]

/-! ### The frames of a ready link (R120, R284) -/

theorem LinkReady.frameSize {tx rx : State} (h : LinkReady tx rx) : tx.cfg.frameSize = rx.cfg.frameSize := by
  rw [Cfg.frameSize, Cfg.frameSize, h.rate, h.baud]

/-- What reaches the receive path of a ready link is the message, when the frames that reach it are detected as the
symbols sent for it. -/
theorem LinkReady.message_received {tx rx u : State} (hlink : LinkReady tx rx) (message : List Byte) (fs : List Frame)
    (hdet : fs.map (detect rx.cfg) = sentSymbols tx.cfg.variant tx.encPol (message.flatMap iterSymbols))
    (hpath : u.rxPath = fs.foldl (RxPath.frame rx.cfg) rx.rxPath) :
    rxbPort u.trace = rxbPort rx.trace ++ message ∧ u.rxCnt = 0#3 ∧
      u.decPol = polAfter tx.cfg.variant tx.encPol (message.flatMap iterSymbols) := by
  have hpol : tx.encPol = rx.rxPath.decPol := hlink.polarity.1.trans hlink.polarity.2.symm
  rw [hlink.coding, hpol] at hdet ⊢
  obtain ⟨sr, hsr⟩ := foldl_shift_message message rx.rxPath hlink.count
  rw [foldl_frame_of_detected _ fs _ hdet, hsr] at hpath
  exact ⟨congrArg RxPath.bytes hpath, congrArg RxPath.rxCnt hpath, congrArg RxPath.decPol hpath⟩

section valid

variable {c : Cfg} (hc : c.valid = true)
include hc

/-- The first sample of a tone is the amplitude, which is not 0 (R8, R122). -/
theorem toneFrame_head?_ne_zero (y : Bit) : (toneFrame c y).head? ≠ some 0#16 := by
  obtain ⟨-, -, -, hamp, -⟩ := (cfg_valid_iff c).mp hc
  rw [toneFrame_head? (frameSize_pos hc)]
  intro h
  have hfirst := toInt_tone hc y 0
  rw [Option.some.inj h, toneInt_zero hc, BitVec.toInt_zero] at hfirst
  omega

theorem toneFrame_eq_dropLast_append (y : Bit) :
    toneFrame c y = (toneFrame c y).dropLast ++ [tone c y (c.frameSize - 1)] := by
  obtain ⟨n, hn⟩ : ∃ n, c.frameSize = n + 1 := ⟨c.frameSize - 1, by have := frameSize_pos hc; omega⟩
  simp [toneFrame, hn, List.range_succ]

/-- The samples of tone frames start with no zero. -/
theorem flatMap_toneFrame_head?_ne_zero (symbols : List Bit) :
    (symbols.flatMap (toneFrame c)).head? ≠ some 0#16 := by
  cases symbols with
  | nil => simp
  | cons y symbols =>
    have hy := toneFrame_head?_ne_zero hc y
    rw [List.flatMap_cons, List.head?_append]
    rw [toneFrame_head? (frameSize_pos hc)] at hy ⊢
    exact hy

end valid

/-! ### A message without leading silence (R188) -/

theorem stripZeros_of_head?_ne_zero {l : List Sample} (h : l.head? ≠ some 0#16) : stripZeros l = l := by
  cases l with
  | nil => rfl
  | cons a l => exact stripZeros_cons_of_ne (by simpa using h) l

/-- Frames that start with no zero, pushed one by one into an empty buffer, are each received whole. -/
theorem execAll_rxpush_frames (fs : List Frame) {s : State} (hs : s.Ready) (hempty : s.fsBuf = [])
    (hfs : ∀ f ∈ fs, f.length = s.cfg.frameSize ∧ f.head? ≠ some 0#16) :
    ∃ u, execAll (fs.map rxpushOf) s = .next u ∧ u.rxPath = fs.foldl (RxPath.frame s.cfg) s.rxPath ∧ u.fsBuf = [] := by
  induction fs generalizing s with
  | nil => exact ⟨s, rfl, rfl, hempty⟩
  | cons f fs ih =>
    obtain ⟨⟨hlen, hhead⟩, hrest⟩ := List.forall_mem_cons.mp hfs
    have hpos := frameSize_pos hs.1
    have hadmit : s.admits f.length = true := admits_of (by omega) (by rw [hempty, Cfg.bufCap, List.length_nil]; omega)
    obtain ⟨t, ht, hcfg, hbound, hpath, hbuf⟩ := rxpush_one s hs f hadmit
    obtain ⟨hwin, hleft⟩ := windows_step hpos f [] hlen
    obtain ⟨hwin_nil, hleft_nil⟩ := windows_short (n := s.cfg.frameSize) [] hpos
    rw [hempty, List.nil_append, stripZeros_of_head?_ne_zero hhead, ← List.append_nil f] at hpath hbuf
    rw [hwin, hwin_nil] at hpath
    rw [hleft, hleft_nil] at hbuf
    obtain ⟨u, hu, hupath, hubuf⟩ := ih (s := t) ⟨by rw [hcfg]; exact hs.1, hbound⟩ hbuf (by rw [hcfg]; exact hrest)
    refine ⟨u, by rw [List.map_cons, execAll, ht]; exact hu, ?_, hubuf⟩
    rw [hupath, hcfg, hpath]
    rfl

/-- Settles O52: the pushed frames reach the receive path whole, and it decodes the encoder's symbols. -/
theorem modulationRoundTrip : Obligations.ModulationRoundTrip := by
  unfold Obligations.ModulationRoundTrip
  intro tx rx bytes htx hrx hlink hempty hdet
  obtain ⟨t, ht, hsent⟩ := execAll_sent exec_txbyte bytes tx
  set symbols := sentSymbols tx.cfg.variant tx.encPol (bytes.flatMap iterSymbols)
  obtain ⟨u, hu, hpath, hbuf⟩ := execAll_rxpush_frames (symbols.map (toneFrame tx.cfg)) hrx hempty fun f hf => by
    obtain ⟨y, -, rfl⟩ := List.mem_map.mp hf
    exact ⟨by rw [toneFrame_length, hlink.frameSize], toneFrame_head?_ne_zero htx y⟩
  have hsymbols : (symbols.map (toneFrame tx.cfg)).map (detect rx.cfg) = symbols := by
    simp [Function.comp_def, hdet]
  obtain ⟨hbytes, hcount, hpol⟩ := hlink.message_received bytes _ hsymbols hpath
  exact ⟨t, u, _, ht, hsent.txs, hu, hbytes, hcount, hbuf, hpol.trans hsent.encPol.symm⟩

/-! ### Any cut of a stream into blocks (R183, R190) -/

/-- Stripping a stream's front first makes no difference. -/
theorem stripZeros_stripZeros_append (l m : List Sample) : stripZeros (stripZeros l ++ m) = stripZeros (l ++ m) := by
  induction l using stripZeros.induct with
  | case1 => rfl
  | case2 a => rfl
  | case3 a b rest h ih =>
    obtain ⟨rfl, rfl⟩ := h
    rw [stripZeros_zero_zero, ih, List.cons_append, List.cons_append, List.cons_append, stripZeros_zero_zero]
  | case4 a b rest h => rw [stripZeros, if_neg h]

theorem stripZeros_idem (l : List Sample) : stripZeros (stripZeros l) = stripZeros l := by
  simpa using stripZeros_stripZeros_append l []

/-- A stripped list of at least two samples stays stripped whatever follows it. -/
theorem stripZeros_append_of_stripped {l : List Sample} (h : stripZeros l = l) (hlen : 2 ≤ l.length)
    (m : List Sample) : stripZeros (l ++ m) = l ++ m := by
  match l with
  | a :: b :: rest =>
    by_cases hz : a = 0#16 ∧ b = 0#16
    · rw [stripZeros, if_pos hz] at h
      have hle := stripZeros_length_le (b :: rest)
      rw [h] at hle
      simp at hle
    · rw [List.cons_append, List.cons_append, stripZeros, if_neg hz]

/-- Draining the windows of what has arrived, and stripping again when more arrives, gives the windows of the whole
stream, when its signal has no two consecutive zeros. -/
theorem windows_of_stripped {n : Nat} (hn : 2 ≤ n) {v rest : List Sample} (hv : stripZeros v = v)
    (hpair : hasZeroPair (stripZeros (v ++ rest)) = false) :
    stripZeros (leftover n v) = leftover n v ∧ hasZeroPair (stripZeros (leftover n v ++ rest)) = false ∧
      windows n (stripZeros (v ++ rest)) = windows n v ++ windows n (stripZeros (leftover n v ++ rest)) ∧
      leftover n (stripZeros (v ++ rest)) = leftover n (stripZeros (leftover n v ++ rest)) := by
  rcases Nat.lt_or_ge v.length n with hshort | hlong
  · obtain ⟨hwin, hleft⟩ := windows_short v hshort
    rw [hleft, hwin]
    exact ⟨hv, hpair, rfl, rfl⟩
  · rw [stripZeros_append_of_stripped hv (by omega)] at hpair ⊢
    have hsuffix : leftover n v <:+ v := List.drop_suffix _ _
    have hback : hasZeroPair (leftover n v ++ rest) = false :=
      hasZeroPair_of_suffix ((List.suffix_append_inj_of_length_eq rfl).mpr ⟨hsuffix, rfl⟩) hpair
    have hleft : hasZeroPair (leftover n v) = false := hasZeroPair_of_prefix (List.prefix_append _ _) hback
    obtain ⟨hwindows, hleftover⟩ := windows_append (n := n) (by omega) v rest
    rw [stripZeros_eq_self hback]
    exact ⟨stripZeros_eq_self hleft, hback, hwindows, hleftover⟩

/-- A block operation whose admitted block gives the windows of the stripped buffer to what `obs` reads of the state, one
`step` for each window, and leaves the remainder buffered, as `RXPUSH` does with the receive path. -/
def FeedsWindows {α : Type} (push : List Sample → Instr) (obs : State → α) (step : Cfg → α → Frame → α) : Prop :=
  ∀ (s : State), s.Ready → ∀ (b : List Sample), s.admits b.length = true →
    ∃ t : State, exec (push b) s = .next t ∧ t.cfg = s.cfg ∧ t.AtBoundary ∧
      obs t = (windows s.cfg.frameSize (stripZeros (s.fsBuf ++ b))).foldl (step s.cfg) (obs s) ∧
      t.fsBuf = leftover s.cfg.frameSize (stripZeros (s.fsBuf ++ b))

theorem rxpush_feedsWindows : FeedsWindows rxpushOf State.rxPath RxPath.frame := rxpush_one

/-- HOW A STREAM IS CUT MAKES NO DIFFERENCE (R190): admitted blocks give the windows of the whole stripped stream. -/
theorem FeedsWindows.execAll_blocks {α : Type} {push : List Sample → Instr} {obs : State → α}
    {step : Cfg → α → Frame → α} (hpush : FeedsWindows push obs step) (blocks : List (List Sample)) {s : State}
    (hs : s.Ready) (hadmit : AllAdmitted push blocks s) (hbuf : stripZeros s.fsBuf = s.fsBuf)
    (hpair : hasZeroPair (stripZeros (s.fsBuf ++ blocks.flatten)) = false) :
    ∃ u : State, execAll (blocks.map push) s = .next u ∧
      obs u = (windows s.cfg.frameSize (stripZeros (s.fsBuf ++ blocks.flatten))).foldl (step s.cfg) (obs s) ∧
      u.fsBuf = leftover s.cfg.frameSize (stripZeros (s.fsBuf ++ blocks.flatten)) := by
  induction blocks generalizing s with
  | nil =>
    obtain ⟨hwin, hleft⟩ := windows_short s.fsBuf hs.2.2.2
    rw [List.flatten_nil, List.append_nil, hbuf, hwin, hleft]
    exact ⟨s, rfl, rfl, rfl⟩
  | cons b blocks ih =>
    obtain ⟨hadmit_b, hadmit_rest⟩ := hadmit
    obtain ⟨t, ht, hcfg, hbound, hobs, hleft⟩ := hpush s hs b hadmit_b
    have hframe : 2 ≤ s.cfg.frameSize := by
      obtain ⟨-, -, -, -, -, -, -, hmin, -⟩ := (cfg_valid_iff _).mp hs.1
      exact hmin
    rw [List.flatten_cons, ← List.append_assoc, ← stripZeros_stripZeros_append] at hpair ⊢
    obtain ⟨hstrip, hpair_rest, hwin, hleftover⟩ := windows_of_stripped hframe (stripZeros_idem _) hpair
    rw [← hleft] at hstrip hpair_rest hwin hleftover
    obtain ⟨u, hu, huobs, hubuf⟩ :=
      ih ⟨by rw [hcfg]; exact hs.1, hbound⟩ (hadmit_rest t ht) hstrip hpair_rest
    refine ⟨u, by rw [List.map_cons, execAll, ht]; exact hu, ?_, ?_⟩
    · rw [huobs, hcfg, hobs, hwin, List.foldl_append]
    · rw [hubuf, hcfg, hleftover]

/-! ### A message after leading silence (R171, R190) -/

/-- A frame one sample late: the sample before it and all but its last sample, which is left for the next window. -/
theorem cons_toneFrame_append {c : Cfg} (hc : c.valid = true) (x : Sample) (y : Bit) (l : List Sample) :
    x :: (toneFrame c y ++ l) = lateWindow x (toneFrame c y) ++ tone c y (c.frameSize - 1) :: l := by
  conv_lhs => rw [toneFrame_eq_dropLast_append hc y]
  simp [lateWindow]

theorem lateWindow_toneFrame_length {c : Cfg} (hc : c.valid = true) (x : Sample) (y : Bit) :
    (lateWindow x (toneFrame c y)).length = c.frameSize := by
  have hpos := frameSize_pos hc
  rw [lateWindow, List.length_cons, List.length_dropLast, toneFrame_length]
  omega

/-- The windows of a signal one sample late are detected as its symbols, when the late windows of its frames are, and
the last sample is left. -/
theorem windows_late {tx rx : Cfg} (htx : tx.valid = true)
    (hdet : ∀ (x : Sample) (y : Bit), x = 0#16 ∨ (∃ z, x = tone tx z (tx.frameSize - 1)) →
      detect rx (lateWindow x (toneFrame tx y)) = y)
    (symbols : List Bit) (x : Sample) (hx : x = 0#16 ∨ ∃ z, x = tone tx z (tx.frameSize - 1)) :
    (windows tx.frameSize (x :: symbols.flatMap (toneFrame tx))).map (detect rx) = symbols ∧
      leftover tx.frameSize (x :: symbols.flatMap (toneFrame tx)) = [(symbols.flatMap (toneFrame tx)).getLastD x] := by
  induction symbols generalizing x with
  | nil =>
    obtain ⟨-, -, -, -, -, -, -, hmin, -⟩ := (cfg_valid_iff _).mp htx
    obtain ⟨hwin, hleft⟩ := windows_short (n := tx.frameSize) [x] hmin
    exact ⟨by rw [List.flatMap_nil, hwin]; rfl, hleft⟩
  | cons y symbols ih =>
    obtain ⟨ihwin, ihleft⟩ := ih (tone tx y (tx.frameSize - 1)) (.inr ⟨y, rfl⟩)
    obtain ⟨hwin, hleft⟩ := windows_step (frameSize_pos htx) (lateWindow x (toneFrame tx y))
      (tone tx y (tx.frameSize - 1) :: symbols.flatMap (toneFrame tx)) (lateWindow_toneFrame_length htx x y)
    rw [List.flatMap_cons, cons_toneFrame_append htx]
    refine ⟨by rw [hwin, List.map_cons, hdet x y hx, ihwin], ?_⟩
    rw [hleft, ihleft, getLastD_append, toneFrame_eq_dropLast_append htx y, List.getLastD_concat]

/-- A signal that starts with no zero has no pair of zeros after one more zero, if it has none itself. -/
theorem hasZeroPair_zero_cons {l : List Sample} (hhead : l.head? ≠ some 0#16) (h : hasZeroPair l = false) :
    hasZeroPair (0#16 :: l) = false := by
  cases l with
  | nil => rfl
  | cons a l =>
    have ha : a ≠ 0#16 := by simpa using hhead
    simp [hasZeroPair, ha, h]

/-- Any number of zeros before a signal, at least one, is stripped to one (R183, R190). -/
theorem stripZeros_silence {l : List Sample} (hhead : l.head? ≠ some 0#16) (h : hasZeroPair l = false) {k : Nat}
    (hk : 1 ≤ k) : stripZeros (List.replicate k 0#16 ++ l) = 0#16 :: l := by
  obtain ⟨j, rfl⟩ : ∃ j, k = j + 1 := ⟨k - 1, by omega⟩
  rw [stripZeros_replicate_append, stripZeros_eq_self (hasZeroPair_zero_cons hhead h)]

/-- A ready link's buffer holds only zeros, at most one. -/
theorem LinkReady.fsBuf {tx rx : State} (h : LinkReady tx rx) :
    rx.fsBuf = List.replicate rx.fsBuf.length 0#16 ∧ stripZeros rx.fsBuf = rx.fsBuf := by
  obtain hbuf | hbuf := h.buffer <;> rw [hbuf] <;> exact ⟨rfl, rfl⟩

/-- Settles O59: the silence is stripped to one zero, so the windows are the frames one sample late, which are detected
as the symbols sent. -/
theorem lateModulationRoundTrip : Obligations.LateModulationRoundTrip := by
  unfold Obligations.LateModulationRoundTrip
  intro tx rx bytes htx hrx hlink hpair hdet
  obtain ⟨t, ht, hsent⟩ := execAll_sent exec_txbyte bytes tx
  set symbols := sentSymbols tx.cfg.variant tx.encPol (bytes.flatMap iterSymbols)
  refine ⟨t, symbols.map (toneFrame tx.cfg), ht, hsent.txs, fun k blocks hk hadmit hblocks => ?_⟩
  rw [← List.flatMap_def] at hblocks ⊢
  have hhead := flatMap_toneFrame_head?_ne_zero htx symbols
  have hstream : stripZeros (rx.fsBuf ++ blocks.flatten) = 0#16 :: symbols.flatMap (toneFrame tx.cfg) := by
    rw [hblocks, hlink.fsBuf.1, ← List.append_assoc, List.replicate_append_replicate,
      stripZeros_silence hhead (hpair symbols) hk]
  obtain ⟨hwin, hleft⟩ := windows_late htx hdet symbols 0#16 (.inl rfl)
  obtain ⟨u, hu, hpath, hbuf⟩ := rxpush_feedsWindows.execAll_blocks blocks hrx hadmit hlink.fsBuf.2
    (by rw [hstream]; exact hasZeroPair_zero_cons hhead (hpair symbols))
  rw [hstream, ← hlink.frameSize] at hpath hbuf
  obtain ⟨hbytes, hcount, hpol⟩ := hlink.message_received bytes _ hwin hpath
  exact ⟨u, hu, hbytes, hcount, hpol.trans hsent.encPol.symm, hbuf.trans hleft⟩

end Sys2Proof.Machine


/-! PROOF. The statements of 41_line_coding.md: the line coder's two steps, the sequences of them, and what the decoder
makes of the encoder's symbols, of a polarity mismatch and of a wrong symbol. -/

namespace Sys2Proof.Machine

/-! ### Symbols as logical bits (R142) -/

/-- The logical bits the decoder gives for symbols, from `DEC_POL` at `pol`: under `NRZI`, whether each symbol differs
from the one before it. -/
def decodedBits (v : Variant) (pol : Bit) (symbols : List Bit) : List Bit :=
  match v with
  | .standard => symbols
  | .nrzi => List.zipWith (· ^^ ·) symbols (pol :: symbols)

/-- `DEC_POL` after decoding symbols from `pol`. -/
def heldAfter (v : Variant) (pol : Bit) (symbols : List Bit) : Bit :=
  match v with
  | .standard => pol
  | .nrzi => symbols.getLastD pol

/-- The first symbol is compared with the polarity held, and each later one with the symbol before it. -/
theorem decodedBits_nrzi_cons (pol y : Bit) (symbols : List Bit) :
    decodedBits .nrzi pol (y :: symbols) = (y ^^ pol) :: decodedBits .nrzi y symbols := rfl

theorem decodedBits_length (v : Variant) (pol : Bit) (symbols : List Bit) :
    (decodedBits v pol symbols).length = symbols.length := by
  cases v <;> simp [decodedBits]

theorem decodedBits_append (v : Variant) (pol : Bit) (as bs : List Bit) :
    decodedBits v pol (as ++ bs) = decodedBits v pol as ++ decodedBits v (heldAfter v pol as) bs := by
  cases v with
  | standard => rfl
  | nrzi =>
    induction as generalizing pol with
    | nil => rfl
    | cons y as ih =>
      rw [List.cons_append, decodedBits_nrzi_cons, decodedBits_nrzi_cons, ih, List.cons_append, heldAfter, heldAfter,
        List.getLastD_cons]

theorem heldAfter_append (v : Variant) (pol : Bit) (as bs : List Bit) :
    heldAfter v pol (as ++ bs) = heldAfter v (heldAfter v pol as) bs := by
  cases v with
  | standard => rfl
  | nrzi => exact getLastD_append as bs pol

/-- A symbol `y` in the middle of a sequence is read for two logical bits, its own and the next (R146 (b)). -/
theorem decodedBits_around (pol : Bit) (front : List Bit) (y z : Bit) (back : List Bit) :
    decodedBits .nrzi pol (front ++ y :: z :: back) =
      decodedBits .nrzi pol front ++ (y ^^ heldAfter .nrzi pol front) :: (z ^^ y) :: decodedBits .nrzi z back := by
  rw [decodedBits_append, decodedBits_nrzi_cons, decodedBits_nrzi_cons]

/-- THE DECODER INVERTS THE ENCODER, from equal polarities (R145). -/
theorem decodedBits_sentSymbols (v : Variant) (pol : Bit) (bits : List Bit) :
    decodedBits v pol (sentSymbols v pol bits) = bits := by
  cases v with
  | standard => rfl
  | nrzi => exact zip_nrziSymbols pol bits

/-- The decoder ends at the encoder's polarity (R145). -/
theorem heldAfter_sentSymbols (v : Variant) (pol : Bit) (bits : List Bit) :
    heldAfter v pol (sentSymbols v pol bits) = polAfter v pol bits := by
  cases v <;> rfl

/-- From the other polarity the first bit comes out inverted; the polarity held is then the encoder's (R146 (a)). -/
theorem decodedBits_of_mismatch (pol b : Bit) (bits : List Bit) :
    decodedBits .nrzi (!pol) (nrziSymbols pol (b :: bits)) = (!b) :: bits := by
  have hfirst : ((b ^^ pol) ^^ !pol) = !b := by cases b <;> cases pol <;> rfl
  have hrest : decodedBits .nrzi (b ^^ pol) (nrziSymbols (b ^^ pol) bits) = bits :=
    decodedBits_sentSymbols .nrzi _ bits
  rw [nrziSymbols, decodedBits_nrzi_cons, hfirst, hrest]

/-! ### What the line coder's commands do (R143, R144) -/

/-- `s` after `LENC` of each of `bits`: a response for each, the encoder's symbol. -/
def afterLencs (bits : List Bit) (s : State) : State :=
  { s with
    encPol := polAfter s.cfg.variant s.encPol bits
    trace := s.trace ++ (sentSymbols s.cfg.variant s.encPol bits).map bitResponse
    cmdptr := s.cmdptr + bits.length }

/-- `s` after `LDEC` of each of `symbols`: a response for each, the decoder's bit. -/
def afterLdecs (symbols : List Bit) (s : State) : State :=
  { s with
    decPol := heldAfter s.cfg.variant s.decPol symbols
    trace := s.trace ++ (decodedBits s.cfg.variant s.decPol symbols).map bitResponse
    cmdptr := s.cmdptr + symbols.length }

theorem exec_lenc (b : Bit) (s : State) : exec (.lenc b) s = .next (afterLencs [b] s) := by
  rcases variant_cases s.cfg with h | h
  · rw [afterLencs, h, exec, execLenc, lineEncode_standard h]
    rfl
  · rw [afterLencs, h, exec, execLenc, lineEncode_nrzi h]
    rfl

theorem exec_ldec (p : Bit) (s : State) : exec (.ldec p) s = .next (afterLdecs [p] s) := by
  rcases variant_cases s.cfg with h | h
  · rw [afterLdecs, h, exec, execLdec, lineDecode_standard h]
    rfl
  · rw [afterLdecs, h, exec, execLdec, lineDecode_nrzi h]
    rfl

/-- Settles O35: one bit's symbol and polarity, read off for each coding; a 1 flips the polarity and a 0 keeps it. -/
theorem lencSteps : Obligations.LencSteps := by
  unfold Obligations.LencSteps
  intro b s
  constructor
  · intro h
    rw [exec_lenc, afterLencs, h]
    rfl
  · intro h
    rw [exec_lenc, afterLencs, h]
    cases b <;> simp [polAfter, sentSymbols, nrziSymbols]

/-- Settles O36: one symbol's bit, read off for each coding; two bits differ exactly when their `^^` is 1. -/
theorem ldecSteps : Obligations.LdecSteps := by
  unfold Obligations.LdecSteps
  intro p s
  constructor
  · intro h
    rw [exec_ldec, afterLdecs, h]
    rfl
  · intro h
    have hbit : (p ^^ s.decPol) = decide (p ≠ s.decPol) := by cases p <;> cases s.decPol <;> rfl
    rw [exec_ldec, afterLdecs, h, decodedBits_nrzi_cons, hbit]
    rfl

/-! ### Sequences of line coder commands (R145, R146) -/

theorem afterLencs_nil (s : State) : afterLencs [] s = s := by
  rcases variant_cases s.cfg with h | h <;> simp [afterLencs, h, polAfter, sentSymbols, nrziSymbols]

theorem afterLencs_append (as bs : List Bit) (s : State) :
    afterLencs (as ++ bs) s = afterLencs bs (afterLencs as s) := by
  rw [afterLencs, polAfter_append, sentSymbols_append, List.map_append, List.length_append, ← List.append_assoc,
    ← Nat.add_assoc]
  rfl

theorem afterLdecs_nil (s : State) : afterLdecs [] s = s := by
  rcases variant_cases s.cfg with h | h <;> simp [afterLdecs, h, heldAfter, decodedBits]

theorem afterLdecs_append (as bs : List Bit) (s : State) :
    afterLdecs (as ++ bs) s = afterLdecs bs (afterLdecs as s) := by
  rw [afterLdecs, heldAfter_append, decodedBits_append, List.map_append, List.length_append, ← List.append_assoc,
    ← Nat.add_assoc]
  rfl

/-- A list of commands does `after` of the list, when a command does `after` of its one element and `after` composes. -/
theorem execAll_map {α : Type} {command : α → Instr} {after : List α → State → State}
    (hone : ∀ a s, exec (command a) s = .next (after [a] s)) (hnil : ∀ s, after [] s = s)
    (happend : ∀ l m s, after (l ++ m) s = after m (after l s)) (l : List α) (s : State) :
    execAll (l.map command) s = .next (after l s) := by
  induction l generalizing s with
  | nil => rw [hnil]; rfl
  | cons a l ih =>
    rw [← List.singleton_append, happend, List.singleton_append, List.map_cons, execAll, hone]
    exact ih (after [a] s)

theorem execAll_lenc (bits : List Bit) (s : State) : execAll (bits.map .lenc) s = .next (afterLencs bits s) :=
  execAll_map exec_lenc afterLencs_nil afterLencs_append bits s

theorem execAll_ldec (symbols : List Bit) (s : State) :
    execAll (symbols.map .ldec) s = .next (afterLdecs symbols s) :=
  execAll_map exec_ldec afterLdecs_nil afterLdecs_append symbols s

/-- Settles O37: the decoder, from the encoder's polarity, inverts the symbols and ends at the encoder's polarity. -/
theorem lineCodingInverts : Obligations.LineCodingInverts := by
  unfold Obligations.LineCodingInverts
  intro bits tx rx hcoding hpol
  refine ⟨_, _, sentSymbols tx.cfg.variant tx.encPol bits, execAll_lenc bits tx, rfl, sentSymbols_length _ _ _,
    execAll_ldec _ rx, ?_, ?_⟩
  · rw [afterLdecs, ← hcoding, ← hpol, decodedBits_sentSymbols]
  · rw [afterLdecs, ← hcoding, ← hpol, heldAfter_sentSymbols]
    rfl

/-- Settles O38: a symbol is compared with the one before it only, so a wrong polarity is seen by the first symbol, and
a wrong symbol by itself and the next. -/
theorem nrziErrorsStayLocal : Obligations.NrziErrorsStayLocal := by
  unfold Obligations.NrziErrorsStayLocal
  constructor
  · intro b bits tx rx _ hrx hpol
    have hheld : rx.decPol = !tx.encPol := by rw [hpol, Bool.not_not]
    refine ⟨_, execAll_ldec _ rx, ?_⟩
    rw [afterLdecs, hrx, hheld, decodedBits_of_mismatch]
  · intro front y z back rx hrx
    refine ⟨_, _, decodedBits .nrzi rx.decPol front, y ^^ heldAfter .nrzi rx.decPol front, z ^^ y,
      decodedBits .nrzi z back, execAll_ldec _ rx, execAll_ldec _ rx, decodedBits_length _ _ _, ?_, ?_⟩
    · rw [afterLdecs, hrx, decodedBits_around]
    · rw [afterLdecs, hrx, decodedBits_around, Bool.not_xor, Bool.xor_not]

end Sys2Proof.Machine


/-! PROOF. The statements of 42_bit_detector.md: the distance of a frame to a reference, the decision between the two
references, and the two commands that take one frame. -/

namespace Sys2Proof.Machine

/-! ### The distance of two frames (R161, R172) -/

@[simp] theorem sad_cons (a b : Sample) (x y : Frame) :
    sad (a :: x) (b :: y) = (a.toInt - b.toInt).natAbs + sad x y := by
  rw [sad, List.zipWith_cons_cons, List.sum_cons, sad]

/-- Two samples differ by at most 65535 (R161, R168). -/
theorem natAbs_toInt_sub_le (a b : Sample) : (a.toInt - b.toInt).natAbs ≤ 65535 := by
  have halow := a.le_toInt
  have hahigh := a.toInt_lt
  have hblow := b.le_toInt
  have hbhigh := b.toInt_lt
  omega

theorem sad_le (x y : Frame) : sad x y ≤ 65535 * y.length := by
  induction x generalizing y with
  | nil => exact Nat.zero_le _
  | cons a x ih =>
    cases y with
    | nil => exact Nat.zero_le _
    | cons b y =>
      have hterm := natAbs_toInt_sub_le a b
      have hrest := ih y
      rw [sad_cons, List.length_cons]
      omega

/-- An absolute difference has the parity of the sum, so a distance has the parity of the sum of all samples. -/
theorem sad_emod_two {x y : Frame} (h : x.length = y.length) :
    (sad x y : ℤ) % 2 = ((x.map BitVec.toInt).sum + (y.map BitVec.toInt).sum) % 2 := by
  induction x generalizing y with
  | nil =>
    obtain rfl : y = [] := List.length_eq_zero_iff.mp h.symm
    rfl
  | cons a x ih =>
    cases y with
    | nil => cases h
    | cons b y =>
      have hrest := ih (Nat.succ.inj h)
      simp only [sad_cons, List.map_cons, List.sum_cons, Nat.cast_add]
      omega

theorem sad_self (x : Frame) : sad x x = 0 := by
  induction x with
  | nil => rfl
  | cons a x ih => rw [sad_cons, ih, sub_self, Int.natAbs_zero]

/-- Frames of one length at distance 0 are the same frame: no two samples have one value. -/
theorem eq_of_sad_eq_zero {x y : Frame} (h : x.length = y.length) (hzero : sad x y = 0) : x = y := by
  induction x generalizing y with
  | nil => exact (List.length_eq_zero_iff.mp h.symm).symm
  | cons a x ih =>
    cases y with
    | nil => cases h
    | cons b y =>
      rw [sad_cons] at hzero
      obtain rfl : a = b := BitVec.eq_of_toInt_eq (by omega)
      rw [ih (Nat.succ.inj h) (by omega)]

/-! ### The distance to a reference (R160, R161) -/

theorem toneDist_toneFrame_self (c : Cfg) (y : Bit) : toneDist c (toneFrame c y) y = 0 := sad_self _

/-- The distance is the sum over the samples of a whole frame, as R161 writes it. -/
theorem toneDist_eq_sum {c : Cfg} {x : Frame} (h : x.length = c.frameSize) (y : Bit) :
    toneDist c x y = (((List.range c.frameSize).map
      (fun n => (x.getD n 0#16).toInt - (tone c y n).toInt)).map Int.natAbs).sum := by
  rw [toneDist, sad, List.map_map]
  congr 1
  apply List.ext_getElem
  · rw [List.length_zipWith, toneFrame_length, h, min_self, List.length_map, List.length_range]
  · intro n hn _
    obtain ⟨hx, -⟩ := lt_min_iff.mp (List.length_zipWith.symm ▸ hn)
    simp [toneFrame, hx]

/-- Settles O40: every term is at most 65535, a reference has `FRAME_SIZE` of them, and that is at most 32767 (R9). -/
theorem distanceFitsAccumulator : Obligations.DistanceFitsAccumulator := by
  unfold Obligations.DistanceFitsAccumulator
  intro c x y hc
  obtain ⟨-, -, -, -, -, -, -, -, hsize⟩ := (cfg_valid_iff c).mp hc
  change c.frameSize ≤ 32767 at hsize
  have hdist : toneDist c x y ≤ 65535 * c.frameSize := by
    rw [← toneFrame_length c y]
    exact sad_le x _
  omega

/-- Settles O41: the frame's own samples are counted in both distances and cancel. -/
theorem tieParityLaw : Obligations.TieParityLaw := by
  unfold Obligations.TieParityLaw
  intro c x hx
  have hparity : ∀ y, (toneDist c x y : ℤ) % 2 =
      ((x.map BitVec.toInt).sum + ((toneFrame c y).map BitVec.toInt).sum) % 2 :=
    fun y => sad_emod_two (by rw [hx, toneFrame_length])
  have hmark := hparity true
  have hspace := hparity false
  omega

/-! ### The decision (R162, R163) -/

theorem detect_of_nearer {c : Cfg} {x : Frame} {y : Bit} (h : toneDist c x y < toneDist c x (!y)) :
    detect c x = y := by
  cases y with
  | false => rw [detect, if_neg (by simpa using h.le), if_pos (by simpa using h)]
  | true => rw [detect, if_pos (by simpa using h)]

theorem detect_of_tie {c : Cfg} {x : Frame} (h : toneDist c x true = toneDist c x false) : detect c x = c.tieBit := by
  rw [detect, if_neg h.not_lt, if_neg h.symm.not_lt]

/-- Settles O42: a reference is at distance 0 from itself and from no other; with one tone frequency there is one
reference, at one distance from every frame. -/
theorem cleanFramesAndTies : Obligations.CleanFramesAndTies := by
  unfold Obligations.CleanFramesAndTies
  refine fun c => ⟨fun hne y => detect_of_nearer ?_, fun hfreq x => detect_of_tie ?_⟩
  · have hother : toneFrame c y ≠ toneFrame c (!y) := by
      cases y with
      | false => exact hne.symm
      | true => exact hne
    rw [toneDist_toneFrame_self, Nat.pos_iff_ne_zero]
    exact fun hzero => hother (eq_of_sad_eq_zero (by simp) hzero)
  · have hfreqs : c.toneFreq true = c.toneFreq false := hfreq
    have htone : tone c true = tone c false := by
      funext n
      rw [tone, tone, toneInt, toneInt, hfreqs]
    rw [toneDist, toneDist, toneFrame, toneFrame, htone]

/-! ### The commands (R164, R166) -/

/-- `DETECT` of a clean payload answers the decision and leaves all else as it was (R164). -/
theorem exec_detect_clean {pay : List Word} (h : payloadClean pay = true) (s : State) :
    exec (.detect pay) s = .next (answered s .ok (bitHalf (detect s.cfg (samples pay))) (1 + pay.length)) := by
  rw [exec, execDetect, if_pos h, complete_eq]

/-- `RXFRAME` of a clean payload is the consumption of its one frame, and the answer (R166). -/
theorem exec_rxframe_clean {pay : List Word} (h : payloadClean pay = true) (s : State) :
    exec (.rxframe pay) s = .next (answered (receiveFrame (samples pay) s).next .ok
      (packVal (receiveFrame (samples pay) s).byte.toNat (receiveFrame (samples pay) s).bit.toNat)
      (1 + pay.length)) := by
  rw [exec, execRxframe, if_pos h, complete_eq]

/-- A frame operation answers a payload word with a reserved bit set, and leaves all else as it was (R254). -/
theorem exec_frame_unclean {pay : List Word} (h : payloadClean pay = false) {i : Instr}
    (hi : i = .detect pay ∨ i = .rxframe pay) (s : State) :
    exec i s = .next (answered s .illegalField 1#16 (1 + pay.length)) := by
  obtain rfl | rfl := hi
  · rw [exec, execDetect, if_neg (by simp [h]), raise_eq]
  · rw [exec, execRxframe, if_neg (by simp [h]), raise_eq]

theorem payloadClean_eq_false {pay : List Word} : payloadClean pay = false ↔ ∃ w ∈ pay, prsv w ≠ 0#16 := by
  simp [payloadClean]

/-- Settles O39: the decision is between the two distances, each the sum over a whole frame. -/
theorem detectNamesNearer : Obligations.DetectNamesNearer := by
  unfold Obligations.DetectNamesNearer
  intro pay s hclean hlen d
  have hdist : ∀ y, toneDist s.cfg (samples pay) y = (d y).sum := toneDist_eq_sum (by rw [samples_length, hlen])
  rw [exec_detect_clean hclean, detect, hdist, hdist]
  rfl

/-- Shifting a bit in at bit 0 doubles the register's value and adds the bit; bit 7 is lost (R165). -/
theorem shiftIn_eq_ofNat (sr : Byte) (b : Bit) : shiftIn sr b = BitVec.ofNat 8 (2 * sr.toNat + b.toNat) := by
  have hlow : b.toNat < 2 ^ 1 := b.toNat_lt
  apply BitVec.eq_of_toNat_eq
  rw [shiftIn, BitVec.toNat_append, BitVec.toNat_ofBool, Nat.shiftLeft_eq, Nat.mul_comm,
    ← Nat.two_pow_add_eq_or_of_lt hlow, BitVec.extractLsb'_toNat, Nat.shiftRight_zero, BitVec.toNat_ofNat]
  omega

/-- The line decoder's bit under `NRZI` is 1 when the symbol differs from `DEC_POL` (R142). -/
theorem rxBitOf_eq (c : Cfg) (pol : Bit) (f : Frame) :
    rxBitOf c pol f = if c.variant = .standard then detect c f else decide (detect c f ≠ pol) := by
  have hxor : (detect c f ^^ pol) = decide (detect c f ≠ pol) := by cases detect c f <;> cases pol <;> rfl
  rw [rxBitOf, hxor]

/-- Settles O43: the one frame is consumed with or without a byte completed, by `RX_CNT`. -/
theorem rxframeAssembles : Obligations.RxframeAssembles := by
  unfold Obligations.RxframeAssembles
  intro pay s hclean p b pol sr
  have hbit : rxBitOf s.cfg s.decPol (samples pay) = b := rxBitOf_eq _ _ _
  have hsr : shiftIn s.rxSr b = sr := shiftIn_eq_ofNat _ _
  rw [exec_rxframe_clean hclean, receiveFrame_eq, hbit, hsr]
  constructor
  · intro h
    have hval : packVal 1 b.toNat = 0x100#16 ||| bitHalf b := by cases b <;> rfl
    have hcnt : s.rxCnt + 1#3 = 0#3 := by rw [h]; rfl
    rw [decide_eq_true h, if_pos h, hcnt, Bool.toNat_true, hval, List.append_cons _ _ [_]]
    rfl
  · intro h
    have hval : packVal 0 b.toNat = bitHalf b := by cases b <;> rfl
    rw [decide_eq_false h, if_neg h, List.append_nil, Bool.toNat_false, hval]
    rfl

/-- Settles O44: the payload is not clean. -/
theorem framePayloadErrorAnswered : Obligations.FramePayloadErrorAnswered := by
  unfold Obligations.FramePayloadErrorAnswered
  intro pay s hbad i hi
  exact exec_frame_unclean (payloadClean_eq_false.mpr hbad) hi s

end Sys2Proof.Machine


/-! PROOF. The statements of 43_frame_sync.md: the zero strip, the admission of blocks, what a block leaves and emits
under `SPUSH` and under `RXPUSH`, and streams of blocks with silence before or after the signal. -/

namespace Sys2Proof.Machine

/-! ### The zero strip (R183) -/

/-- Settles O45: a run of zeros is stripped to one, which the next sample, not a zero, protects. -/
theorem stripLeavesOneZero : Obligations.StripLeavesOneZero := by
  unfold Obligations.StripLeavesOneZero
  intro k l hhead
  cases k with
  | zero => exact stripZeros_of_head?_ne_zero hhead
  | succ k =>
    rw [stripZeros_replicate_append, if_neg (Nat.succ_ne_zero k)]
    cases l with
    | nil => rfl
    | cons a l => exact stripZeros_zero_cons_of_ne (by simpa using hhead) l

/-! ### Admission (R181) -/

/-- At a boundary a block of 1 to `FRAME_SIZE + 1` samples fits the buffer (R181, R189). -/
theorem fits_of_atBoundary {s : State} (hs : s.AtBoundary) {n : Nat} (hn : n ≤ s.cfg.frameSize + 1) :
    s.fsBuf.length + n ≤ s.cfg.bufCap := by
  obtain ⟨-, -, hlen⟩ := hs
  rw [Cfg.bufCap]
  omega

theorem admits_of_atBoundary {s : State} (hs : s.AtBoundary) {n : Nat} (hpos : 1 ≤ n)
    (hn : n ≤ s.cfg.frameSize + 1) : s.admits n = true :=
  admits_of hpos (fits_of_atBoundary hs hn)

/-- A block that is not admitted is answered `BAD_LENGTH` before its payload is looked at (R181, R260). -/
theorem exec_push_refused {pay : List Word} {s : State} {i : Instr} (hi : i = .spush pay ∨ i = .rxpush pay)
    (h : s.admits pay.length = false) :
    exec i s = .next (answered s .badLength (BitVec.ofNat 16 s.fsBuf.length) (1 + pay.length)) := by
  obtain rfl | rfl := hi
  · rw [exec, execSpush, if_neg (by simp [h]), raiseBadLength, raise_eq]
  · rw [exec, execRxpush, if_neg (by simp [h]), raiseBadLength, raise_eq]

/-- A command that completes after operations that emit appends their events and an `OK` response to the trace. -/
theorem complete_trace {P : Event → Prop} {s m : State} (hm : Emits P s m) (n : Nat) (v : Half) :
    ∃ (t : State) (evs : List Event) (v' : Half), complete n v m = .next t ∧
      t.trace = s.trace ++ evs ++ [.rsp (responseWord .ok v')] := by
  obtain ⟨evs, hevs, -⟩ := hm.events
  exact ⟨_, evs, v, complete_eq n v m, by rw [advance_trace, respond_trace, hevs]⟩

/-- An admitted clean block is answered `OK`, after the events of the synchronizer (R187, R188). -/
theorem exec_push_ok {pay : List Word} {s : State} {i : Instr} (hi : i = .spush pay ∨ i = .rxpush pay)
    (hv : s.cfg.valid = true) (h : s.admits pay.length = true) (hclean : payloadClean pay = true) :
    ∃ (t : State) (evs : List Event) (v : Half), exec i s = .next t ∧
      t.trace = s.trace ++ evs ++ [.rsp (responseWord .ok v)] := by
  have hpos := frameSize_pos hv
  obtain rfl | rfl := hi
  · rw [exec_spush_ok h hclean]
    exact complete_trace (syncBlock_spec deliverAligned_ok (samples pay) s hpos).1 _ _
  · rw [exec_rxpush_ok h hclean]
    exact complete_trace (syncBlock_spec deliverReceived_ok (samples pay) s hpos).1 _ _

/-- Settles O48: the admission check goes first, and at a boundary less than a frame is buffered. -/
theorem admissionOfBlocks : Obligations.AdmissionOfBlocks := by
  unfold Obligations.AdmissionOfBlocks
  intro pay s i hv hi
  refine ⟨fun hfits hclean => exec_push_ok hi hv (admits_iff.mpr hfits) hclean, fun hfits => ?_,
    fun hbound _ hn => fits_of_atBoundary hbound hn⟩
  have hrefused : s.admits pay.length = false := Bool.eq_false_iff.mpr (mt admits_iff.mp hfits)
  exact exec_push_refused hi hrefused

/-! ### One block, whole (R184 to R188) -/

/-- One frame buffered: it is the one window, and the rest is left. -/
theorem windows_one {n : Nat} {v : List Sample} (h1 : n ≤ v.length) (h2 : v.length < 2 * n) :
    windows n v = [v.take n] ∧ leftover n v = v.drop n := by
  obtain ⟨hwin, hleft⟩ := windows_step (n := n) (by omega) (v.take n) (v.drop n) (by simp [h1])
  obtain ⟨hwin_rest, hleft_rest⟩ := windows_short (n := n) (v.drop n) (by rw [List.length_drop]; omega)
  rw [List.take_append_drop] at hwin hleft
  exact ⟨by rw [hwin, hwin_rest], by rw [hleft, hleft_rest]⟩

/-- Two frames buffered: they are the two windows, and nothing is left. -/
theorem windows_two {n : Nat} (hn : 0 < n) {v : List Sample} (h : v.length = 2 * n) :
    windows n v = [v.take n, v.drop n] ∧ leftover n v = [] := by
  have hlen : (v.drop n).length = n := by rw [List.length_drop]; omega
  obtain ⟨hwin, hleft⟩ := windows_step hn (v.take n) (v.drop n) (by simp [h]; omega)
  obtain ⟨hwin_rest, hleft_rest⟩ := windows_one (n := n) (v := v.drop n) (by omega) (by omega)
  rw [List.take_append_drop] at hwin hleft
  exact ⟨by rw [hwin, hwin_rest, List.take_of_length_le hlen.le],
    by rw [hleft, hleft_rest, List.drop_eq_nil_of_le hlen.le]⟩

/-- The events of a block that drains `frames`: those of the deliveries between the two changes of `RECEIVING`, and none
where there is no frame (R186). -/
def excursion (frames : List Frame) (delivered : List Event) : List Event :=
  if frames = [] then [] else [.evt .active] ++ delivered ++ [.evt .inactive]

/-- The buffer after a block and the strip, in whole frames (R182, R183, R185). -/
def State.framesWith (s : State) (pay : List Word) : List Frame :=
  windows s.cfg.frameSize (stripZeros (s.fsBuf ++ samples pay))

/-- What the frames leave of the buffer after a block and the strip (R185). -/
def State.restWith (s : State) (pay : List Word) : List Sample :=
  leftover s.cfg.frameSize (stripZeros (s.fsBuf ++ samples pay))

/-- The stripped buffer of an admitted block holds no frame, one or two, and `d` is given each in turn, between the two
changes of `RECEIVING` (R181, R187). -/
theorem syncBlock_cases {d : Deliver} (hd : d.Ok) {pay : List Word} {s : State} (hs : s.Ready)
    (h : s.admits pay.length = true) :
    (s.framesWith pay = [] ∧ syncBlock d (samples pay) s = ⟨{ s with fsBuf := s.restWith pay }, 0, 0⟩) ∨
    (∃ f, s.framesWith pay = [f] ∧
      let r := d f (entered s (s.restWith pay))
      syncBlock d (samples pay) s = ⟨left r.1, 1, r.2⟩) ∨
    ∃ f g, s.framesWith pay = [f, g] ∧ s.restWith pay = [] ∧
      let r := d f (entered s g)
      let q := d g { r.1 with fsBuf := [] }
      syncBlock d (samples pay) s = ⟨left q.1, 2, r.2 + q.2⟩ := by
  obtain ⟨hv, -, hrecv, -⟩ := hs
  have hpos := frameSize_pos hv
  rw [State.framesWith, State.restWith]
  set v := stripZeros (s.fsBuf ++ samples pay) with hstrip
  have hle : v.length ≤ s.cfg.bufCap := calc
    v.length ≤ (s.fsBuf ++ samples pay).length := stripZeros_length_le _
    _ = s.fsBuf.length + pay.length := by rw [List.length_append, samples_length]
    _ ≤ s.cfg.bufCap := (admits_iff.mp h).2
  rw [Cfg.bufCap] at hle
  rcases Nat.lt_or_ge v.length s.cfg.frameSize with hbelow | hone
  · obtain ⟨hwin, hleft⟩ := windows_short v hbelow
    rw [hwin, hleft]
    exact .inl ⟨rfl, syncBlock_below hbelow⟩
  rcases Nat.lt_or_ge v.length (2 * s.cfg.frameSize) with hless | htwo
  · obtain ⟨hwin, hleft⟩ := windows_one hone hless
    rw [hwin, hleft]
    exact .inr (.inl ⟨_, rfl, syncBlock_one hd hrecv hstrip.symm hone hless⟩)
  · have hfull : v.length = 2 * s.cfg.frameSize := le_antisymm hle htwo
    obtain ⟨hwin, hleft⟩ := windows_two hpos hfull
    rw [hwin, hleft]
    exact .inr (.inr ⟨_, _, rfl, rfl, syncBlock_two hd hrecv hstrip.symm hpos hfull⟩)

/-- An admitted block under `SPUSH`: the frames go to the `ALN` port (R187). -/
theorem syncBlock_aligned {pay : List Word} {s : State} (hs : s.Ready) (h : s.admits pay.length = true) :
    syncBlock deliverAligned (samples pay) s =
      ⟨{ s with
        fsBuf := s.restWith pay
        trace := s.trace ++ excursion (s.framesWith pay) ((s.framesWith pay).map .aln) },
      (s.framesWith pay).length, 0⟩ := by
  obtain ⟨-, hseek, hrecv, -⟩ := id hs
  obtain ⟨hframes, hsync⟩ | ⟨f, hframes, hsync⟩ | ⟨f, g, hframes, hrest, hsync⟩ :=
    syncBlock_cases deliverAligned_ok hs h
  · simp [hsync, hframes, excursion]
  · simp [hsync, hframes, excursion, deliverAligned, hseek, hrecv]
  · simp [hsync, hframes, hrest, excursion, deliverAligned, hseek, hrecv]

/-- The state an admitted clean `SPUSH` leaves at a boundary (R186, R187). -/
def State.spushed (pay : List Word) (s : State) : State :=
  { s with
    fsBuf := s.restWith pay
    trace := s.trace ++ excursion (s.framesWith pay) ((s.framesWith pay).map .aln) ++
      [.rsp (responseWord .ok (BitVec.ofNat 16 (s.framesWith pay).length))]
    cmdptr := s.cmdptr + (1 + pay.length) }

theorem exec_spush_admitted {pay : List Word} {s : State} (hs : s.Ready) (h : s.admits pay.length = true)
    (hclean : payloadClean pay = true) : exec (.spush pay) s = .next (s.spushed pay) := by
  rw [exec_spush_ok h hclean, syncBlock_aligned hs h]
  rfl

/-- Settles O46: the frames of the stripped buffer are none, one or two. -/
theorem spushAligns : Obligations.SpushAligns := by
  unfold Obligations.SpushAligns
  intro pay s hs h1 hfits hclean v n
  rw [exec_spush_admitted hs (admits_of h1 hfits) hclean, State.spushed, State.framesWith, State.restWith]
  have hone : responseWord .ok 1#16 = 0x00000001#32 := by decide
  have htwo : responseWord .ok 2#16 = 0x00000002#32 := by decide
  refine ⟨fun hbelow => ?_, fun hge hlt => ?_, fun hfull => ?_⟩
  · obtain ⟨hwin, hleft⟩ := windows_short v hbelow
    rw [hwin, hleft, excursion, if_pos rfl, List.append_nil]
    rfl
  · obtain ⟨hwin, hleft⟩ := windows_one hge hlt
    simp [v, n, hwin, hleft, excursion, hone]
  · obtain ⟨hwin, hleft⟩ := windows_two (frameSize_pos hs.1) hfull
    simp [v, n, hwin, hleft, excursion, htwo]

/-! ### Frames through the receive path (R166, R188) -/

/-- The bytes completed before make no difference to what frames do, and stay in front (R165). -/
theorem foldl_frame_bytes (c : Cfg) (fs : List Frame) (r : RxPath) :
    fs.foldl (RxPath.frame c) r = { fs.foldl (RxPath.frame c) { r with bytes := [] } with
      bytes := r.bytes ++ (fs.foldl (RxPath.frame c) { r with bytes := [] }).bytes } := by
  induction fs generalizing r with
  | nil => simp
  | cons f fs ih =>
    rw [List.foldl_cons, List.foldl_cons, ih (RxPath.frame c r f), ih (RxPath.frame c { r with bytes := [] } f)]
    simp [RxPath.frame]

/-- The receive path's registers after frames, and the bytes those frames complete. -/
def State.rxAfter (fs : List Frame) (s : State) : RxPath := fs.foldl (RxPath.frame s.cfg) { s.rxPath with bytes := [] }

theorem foldl_frame_rxPath (fs : List Frame) (s : State) :
    fs.foldl (RxPath.frame s.cfg) s.rxPath = { s.rxAfter fs with bytes := rxbPort s.trace ++ (s.rxAfter fs).bytes } :=
  foldl_frame_bytes _ _ _

/-- A state with the registers of a receive path, at some trace and pointer. -/
def State.withRxPath (r : RxPath) (trace : List Event) (cmdptr : Nat) (s : State) : State :=
  { s with decPol := r.decPol, rxSr := r.rxSr, rxCnt := r.rxCnt, trace := trace, cmdptr := cmdptr }

theorem deliverReceived_eq (f : Frame) (s : State) :
    deliverReceived f s =
      (s.withRxPath (s.rxAfter [f]) (s.trace ++ (s.rxAfter [f]).bytes.map .rxb) s.cmdptr,
        (s.rxAfter [f]).bytes.length) := by
  rw [deliverReceived, receiveFrame_eq]
  by_cases h : s.rxCnt = 7#3 <;> simp [State.withRxPath, State.rxAfter, RxPath.frame, State.rxPath, h]

/-- An admitted block under `RXPUSH`: the receive path takes the frames (R188). -/
theorem syncBlock_received {pay : List Word} {s : State} (hs : s.Ready) (h : s.admits pay.length = true) :
    syncBlock deliverReceived (samples pay) s =
      ⟨{ s.withRxPath (s.rxAfter (s.framesWith pay))
          (s.trace ++ excursion (s.framesWith pay) ((s.rxAfter (s.framesWith pay)).bytes.map .rxb)) s.cmdptr with
        fsBuf := s.restWith pay },
      (s.framesWith pay).length, (s.rxAfter (s.framesWith pay)).bytes.length⟩ := by
  obtain ⟨-, hseek, hrecv, -⟩ := id hs
  obtain ⟨hframes, hsync⟩ | ⟨f, hframes, hsync⟩ | ⟨f, g, hframes, hrest, hsync⟩ :=
    syncBlock_cases deliverReceived_ok hs h
  · simp [hsync, hframes, excursion, State.withRxPath, State.rxAfter, State.rxPath]
  · simp [hsync, hframes, excursion, deliverReceived_eq, State.withRxPath, State.rxAfter, State.rxPath, hseek, hrecv]
  · simp [hsync, hframes, hrest, excursion, deliverReceived_eq, State.withRxPath, State.rxAfter, State.rxPath,
      RxPath.frame, hseek, hrecv]

/-- AN ADMITTED CLEAN `RXPUSH` at a boundary, whole (R188). -/
theorem exec_rxpush_admitted {pay : List Word} {s : State} (hs : s.Ready) (h : s.admits pay.length = true)
    (hclean : payloadClean pay = true) :
    exec (.rxpush pay) s = .next { s.withRxPath (s.rxAfter (s.framesWith pay))
        (s.trace ++ excursion (s.framesWith pay) ((s.rxAfter (s.framesWith pay)).bytes.map .rxb) ++
          [.rsp (responseWord .ok
            (BitVec.ofNat 16 (256 * (s.rxAfter (s.framesWith pay)).bytes.length + (s.framesWith pay).length)))])
        (s.cmdptr + (1 + pay.length)) with
      fsBuf := s.restWith pay } := by
  have hframes : (s.framesWith pay).length < 256 := by
    obtain ⟨hnone, -⟩ | ⟨f, hone, -⟩ | ⟨f, g, htwo, -⟩ := syncBlock_cases deliverReceived_ok hs h
    · simp [hnone]
    · simp [hone]
    · simp [htwo]
  rw [exec_rxpush_ok h hclean, syncBlock_received hs h, packVal_eq _ _ hframes]
  rfl

/-- `RXFRAME` of one frame, as a step of the receive path; its response is on no other port (R166). -/
theorem exec_rxframeOf_rxPath (f : Frame) (s : State) :
    ∃ (trace : List Event) (cmdptr : Nat), let t := s.withRxPath (s.rxPath.frame s.cfg f) trace cmdptr
      exec (rxframeOf f) s = .next t ∧ t.rxPath = s.rxPath.frame s.cfg f ∧ evtPort trace = evtPort s.trace := by
  rw [exec_rxframeOf, complete_eq, ← receiveFrame_rxPath, receiveFrame_eq]
  refine ⟨_, _, rfl, answered_rxPath _ _ _ _, ?_⟩
  by_cases h : s.rxCnt = 7#3 <;> simp [h, evtPort, Event.evtChange]

/-- `RXFRAME` of each of some frames: the receive path takes them, and no change of `RECEIVING` is emitted (R166). -/
theorem execAll_rxframes (fs : List Frame) (s : State) :
    ∃ (trace : List Event) (cmdptr : Nat), let u := s.withRxPath (s.rxAfter fs) trace cmdptr
      execAll (fs.map rxframeOf) s = .next u ∧ rxbPort trace = rxbPort s.trace ++ (s.rxAfter fs).bytes ∧
        evtPort trace = evtPort s.trace := by
  suffices h : ∃ (trace : List Event) (cmdptr : Nat),
      let r := fs.foldl (RxPath.frame s.cfg) s.rxPath
      execAll (fs.map rxframeOf) s = .next (s.withRxPath r trace cmdptr) ∧ rxbPort trace = r.bytes ∧
        evtPort trace = evtPort s.trace by
    rwa [foldl_frame_rxPath] at h
  induction fs generalizing s with
  | nil => exact ⟨s.trace, s.cmdptr, rfl, rfl, rfl⟩
  | cons f fs ih =>
    obtain ⟨trace, cmdptr, hexec, hpath, hevt⟩ := exec_rxframeOf_rxPath f s
    obtain ⟨trace', cmdptr', hrest, hrxb, hevt'⟩ := ih (s.withRxPath (s.rxPath.frame s.cfg f) trace cmdptr)
    rw [hpath] at hrest hrxb
    refine ⟨trace', cmdptr', ?_, hrxb, hevt'.trans hevt⟩
    rw [List.map_cons, execAll, hexec]
    exact hrest

/-- Aligned frames are all on the `ALN` port. -/
theorem ports_of_aligned (frames : List Frame) :
    alnPort (frames.map Event.aln) = frames ∧ rxbPort (frames.map Event.aln) = [] ∧
      evtPort (frames.map Event.aln) = [] := by
  induction frames with
  | nil => exact ⟨rfl, rfl, rfl⟩
  | cons f frames ih =>
    obtain ⟨haln, hrxb, hevt⟩ := ih
    exact ⟨congrArg (f :: ·) haln, hrxb, hevt⟩

/-- The ports of an excursion: what was delivered, and the two changes of `RECEIVING` (R186). -/
theorem ports_of_excursion {frames : List Frame} (hne : frames ≠ []) (delivered : List Event) :
    alnPort (excursion frames delivered) = alnPort delivered ∧
      rxbPort (excursion frames delivered) = rxbPort delivered ∧
      evtPort (excursion frames delivered) = .active :: evtPort delivered ++ [.inactive] := by
  simp only [excursion, if_neg hne, alnPort_append, rxbPort_append, evtPort_append]
  exact ⟨List.append_nil (alnPort delivered), List.append_nil (rxbPort delivered), rfl⟩

/-- What an admitted clean `SPUSH` adds to the ports: its frames, no byte, and the changes of `RECEIVING`
(R186, R187). -/
theorem spushed_ports (pay : List Word) (s : State) :
    alnPort (s.spushed pay).trace = alnPort s.trace ++ s.framesWith pay ∧
      rxbPort (s.spushed pay).trace = rxbPort s.trace ∧
      evtPort (s.spushed pay).trace =
        evtPort s.trace ++ if s.framesWith pay = [] then [] else [.active, .inactive] := by
  obtain ⟨-, haln_rsp, hrxb_rsp, hevt_rsp, -⟩ :=
    ports_of_response (responseWord .ok (BitVec.ofNat 16 (s.framesWith pay).length))
  simp only [State.spushed, alnPort_append, rxbPort_append, evtPort_append, haln_rsp, hrxb_rsp, hevt_rsp,
    List.append_nil]
  by_cases hnone : s.framesWith pay = []
  · rw [hnone]
    exact ⟨rfl, List.append_nil _, rfl⟩
  · obtain ⟨haln, hrxb, hevt⟩ := ports_of_aligned (s.framesWith pay)
    obtain ⟨haln_exc, hrxb_exc, hevt_exc⟩ := ports_of_excursion hnone ((s.framesWith pay).map .aln)
    rw [haln_exc, hrxb_exc, hevt_exc, haln, hrxb, hevt, if_neg hnone]
    exact ⟨rfl, List.append_nil _, rfl⟩

/-- Settles O47: both operations drain the same frames, and the receive path takes them the same way. -/
theorem rxpushIsSpushThenRxframes : Obligations.RxpushIsSpushThenRxframes := by
  unfold Obligations.RxpushIsSpushThenRxframes
  intro pay s hs h1 hfits hclean
  have hadmit := admits_of h1 hfits
  obtain ⟨haln, hrxb, hevt⟩ := spushed_ports pay s
  obtain ⟨trace, cmdptr, hframes, hrxb_frames, hevt_frames⟩ := execAll_rxframes (s.framesWith pay) (s.spushed pay)
  rw [hrxb] at hrxb_frames
  rw [hevt] at hevt_frames
  exact ⟨_, _, s.framesWith pay, (s.rxAfter (s.framesWith pay)).bytes, exec_spush_admitted hs hadmit hclean, haln,
    hframes, hrxb_frames, hevt_frames, exec_rxpush_admitted hs hadmit hclean⟩

/-! ### Leading silence (R190, R192) -/

/-- The frames on the `ALN` port of a state's trace. -/
def State.aligned (s : State) : List Frame := alnPort s.trace

/-- One more frame at the end, as `SPUSH` delivers it. -/
def addFrame (_ : Cfg) (frames : List Frame) (f : Frame) : List Frame := frames ++ [f]

theorem foldl_addFrame (c : Cfg) (frames windows : List Frame) :
    windows.foldl (addFrame c) frames = frames ++ windows := by
  induction windows generalizing frames with
  | nil => rw [List.foldl_nil, List.append_nil]
  | cons f windows ih => rw [List.foldl_cons, ih, addFrame, List.append_assoc, List.singleton_append]

/-- `SPUSH` gives the windows of the stripped buffer to the `ALN` port. -/
theorem spush_feedsWindows : FeedsWindows spushOf State.aligned addFrame := by
  intro s hs b h
  obtain ⟨t, ht, hcfg, hbound, haln, hleft⟩ := spush_one s hs b h
  exact ⟨t, ht, hcfg, hbound, haln.trans (foldl_addFrame _ _ _).symm, hleft⟩

/-- Blocks of 1 to `FRAME_SIZE + 1` samples are admitted each in its turn, because each block leaves a boundary
(R181, R189). -/
theorem FeedsWindows.allAdmitted {α : Type} {push : List Sample → Instr} {obs : State → α}
    {step : Cfg → α → Frame → α} (hpush : FeedsWindows push obs step) (blocks : List (List Sample)) {s : State}
    (hs : s.Ready) (hblocks : ∀ b ∈ blocks, 1 ≤ b.length ∧ b.length ≤ s.cfg.frameSize + 1) :
    AllAdmitted push blocks s := by
  induction blocks generalizing s with
  | nil => trivial
  | cons b blocks ih =>
    obtain ⟨⟨hpos, hlen⟩, hrest⟩ := List.forall_mem_cons.mp hblocks
    have hadmit := admits_of_atBoundary hs.2 hpos hlen
    obtain ⟨t, ht, hcfg, hbound, -⟩ := hpush s hs b hadmit
    refine ⟨hadmit, fun t' ht' => ?_⟩
    obtain rfl : t = t' := by
      rw [ht] at ht'
      exact Host.Outcome.next.inj ht'
    exact ih ⟨by rw [hcfg]; exact hs.1, hbound⟩ (by rw [hcfg]; exact hrest)

/-- Settles O50: what arrives is zeros and then the signal; stripped, it has no two consecutive zeros, so the cut
makes no difference. -/
theorem leadingSilenceAlignment : Obligations.LeadingSilenceAlignment := by
  unfold Obligations.LeadingSilenceAlignment
  refine ⟨?_, fun s blocks hs hlen =>
    ⟨spush_feedsWindows.allAdmitted blocks hs hlen, rxpush_feedsWindows.allAdmitted blocks hs hlen⟩⟩
  intro s blocks j k signal hs hj hbuf hadmit hblocks hhead hpair stream
  have hstream : stripZeros (s.fsBuf ++ blocks.flatten) = stream := by
    rw [hbuf, hblocks, ← List.append_assoc, List.replicate_append_replicate, stripLeavesOneZero _ _ hhead]
  have hbuf_stripped : stripZeros s.fsBuf = s.fsBuf := by
    rw [hbuf]
    obtain rfl | rfl : j = 0 ∨ j = 1 := by omega
    · rfl
    · rfl
  have hstream_pair : hasZeroPair stream = false := by
    by_cases hsilence : j + k = 0
    · rw [show stream = signal from if_pos hsilence]
      exact hpair
    · rw [show stream = 0#16 :: signal from if_neg hsilence]
      exact hasZeroPair_zero_cons hhead hpair
  obtain ⟨t, ht, haln, hleft⟩ := spush_feedsWindows.execAll_blocks blocks hs hadmit hbuf_stripped
    (by rw [hstream]; exact hstream_pair)
  rw [hstream] at haln hleft
  exact ⟨t, ht, haln.trans (foldl_addFrame _ _ _), hleft⟩

/-! ### Silence after a late burst (R191) -/

/-- A block of 1 to `n` zeros. -/
def IsSilence (n : Nat) (b : List Sample) : Prop := 1 ≤ b.length ∧ b.length ≤ n ∧ ∀ y ∈ b, y = 0#16

theorem IsSilence.eq_replicate {n : Nat} {b : List Sample} (h : IsSilence n b) : b = List.replicate b.length 0#16 :=
  List.eq_replicate_of_mem h.2.2

/-- One block of silence pushed at a boundary, before what `blocks` do from the state it leaves. -/
theorem execAll_spush_silence_cons {s : State} (hs : s.Ready) {b : List Sample} (hb : IsSilence s.cfg.frameSize b)
    (blocks : List (List Sample)) :
    ∃ t : State, execAll ((b :: blocks).map spushOf) s = execAll (blocks.map spushOf) t ∧
      t.Ready ∧ t.cfg = s.cfg ∧
      alnPort t.trace = alnPort s.trace ++
        windows s.cfg.frameSize (stripZeros (s.fsBuf ++ List.replicate b.length 0#16)) ∧
      t.fsBuf = leftover s.cfg.frameSize (stripZeros (s.fsBuf ++ List.replicate b.length 0#16)) := by
  obtain ⟨hpos, hlen, -⟩ := id hb
  obtain ⟨t, ht, hcfg, hbound, haln, hleft⟩ := spush_one s hs b (admits_of_atBoundary hs.2 hpos (by omega))
  rw [hb.eq_replicate] at haln hleft
  exact ⟨t, by rw [List.map_cons, execAll, ht], ⟨by rw [hcfg]; exact hs.1, hbound⟩, hcfg, haln, hleft⟩

/-- Silence on top of silence yields no frame: it is stripped to one zero (R183, R191). -/
theorem execAll_spush_silence (blocks : List (List Sample)) {s : State} (hs : s.Ready) {r : Nat}
    (hbuf : s.fsBuf = List.replicate r 0#16) (hblocks : ∀ b ∈ blocks, IsSilence s.cfg.frameSize b) :
    ∃ t : State, execAll (blocks.map spushOf) s = .next t ∧ alnPort t.trace = alnPort s.trace := by
  induction blocks generalizing s r with
  | nil => exact ⟨s, rfl, rfl⟩
  | cons b blocks ih =>
    obtain ⟨hb, hrest⟩ := List.forall_mem_cons.mp hblocks
    obtain ⟨t, hexec, ht, hcfg, haln, hleft⟩ := execAll_spush_silence_cons hs hb blocks
    have hstrip : stripZeros (s.fsBuf ++ List.replicate b.length 0#16) = [0#16] := by
      have h := stripLeavesOneZero (r + b.length) [] (by simp)
      rwa [List.append_nil, if_neg (by have := hb.1; omega), ← List.replicate_append_replicate, ← hbuf] at h
    obtain ⟨-, -, -, -, -, -, -, hframe, -⟩ := (cfg_valid_iff _).mp hs.1
    obtain ⟨hwin, hrest_zero⟩ := windows_short (n := s.cfg.frameSize) [0#16] hframe
    rw [hstrip, hwin, List.append_nil] at haln
    rw [hstrip, hrest_zero] at hleft
    obtain ⟨u, hu, hualn⟩ := ih (r := 1) ht hleft (by rw [hcfg]; exact hrest)
    exact ⟨u, hexec.trans hu, hualn.trans haln⟩

/-- Silence after a sample that is no zero, with `m` zeros buffered behind it: the sample's frame fills up, is drained,
and leaves only silence (R191). -/
theorem execAll_spush_burst_end (blocks : List (List Sample)) {s : State} (hs : s.Ready) {x : Sample} (hx : x ≠ 0#16)
    {m : Nat} (hbuf : s.fsBuf = x :: List.replicate m 0#16) (hblocks : ∀ b ∈ blocks, IsSilence s.cfg.frameSize b) :
    ∃ t : State, execAll (blocks.map spushOf) s = .next t ∧
      alnPort t.trace = alnPort s.trace ++
        if s.cfg.frameSize - 1 ≤ m + blocks.flatten.length then [x :: List.replicate (s.cfg.frameSize - 1) 0#16]
        else [] := by
  have hshort : m + 1 < s.cfg.frameSize := by
    obtain ⟨-, -, -, hlen⟩ := hs
    simpa [hbuf] using hlen
  induction blocks generalizing s m with
  | nil =>
    rw [if_neg (by rw [List.flatten_nil, List.length_nil]; omega), List.append_nil]
    exact ⟨s, rfl, rfl⟩
  | cons b blocks ih =>
    obtain ⟨hb, hrest⟩ := List.forall_mem_cons.mp hblocks
    obtain ⟨t, hexec, ht, hcfg, haln, hleft⟩ := execAll_spush_silence_cons hs hb blocks
    have hstrip : stripZeros (s.fsBuf ++ List.replicate b.length 0#16) = x :: List.replicate (m + b.length) 0#16 := by
      rw [hbuf, List.cons_append, List.replicate_append_replicate, stripZeros_cons_of_ne hx]
    rw [hstrip] at haln hleft
    rw [List.flatten_cons, List.length_append, ← Nat.add_assoc]
    rcases Nat.lt_or_ge (m + b.length + 1) s.cfg.frameSize with hbelow | hfull
    · obtain ⟨hwin, hwhole⟩ := windows_short (n := s.cfg.frameSize) (x :: List.replicate (m + b.length) 0#16)
        (by simpa using hbelow)
      rw [hwin, List.append_nil] at haln
      rw [hwhole] at hleft
      obtain ⟨u, hu, hualn⟩ := ih ht hleft (by rw [hcfg]; exact hrest) (by rw [hcfg]; exact hbelow)
      rw [hcfg, haln] at hualn
      exact ⟨u, hexec.trans hu, hualn⟩
    · have hlen := hb.2.1
      obtain ⟨n, hn⟩ : ∃ n, s.cfg.frameSize = n + 1 := ⟨s.cfg.frameSize - 1, by omega⟩
      obtain ⟨hwin, hzeros⟩ := windows_one (n := s.cfg.frameSize) (v := x :: List.replicate (m + b.length) 0#16)
        (by simpa using hfull) (by rw [List.length_cons, List.length_replicate]; omega)
      rw [hzeros, hn, List.drop_succ_cons, List.drop_replicate] at hleft
      rw [hwin, hn, List.take_succ_cons, List.take_replicate, Nat.min_eq_left (by omega)] at haln
      obtain ⟨u, hu, hualn⟩ := execAll_spush_silence blocks ht hleft (by rw [hcfg]; exact hrest)
      rw [if_pos (by omega), hn]
      exact ⟨u, hexec.trans hu, hualn.trans haln⟩

/-- Settles O51: one nonzero sample with no zero behind it yet. -/
theorem silenceAfterLateBurst : Obligations.SilenceAfterLateBurst := by
  unfold Obligations.SilenceAfterLateBurst
  intro s x blocks hs hbuf hx hblocks
  simpa only [Nat.zero_add] using execAll_spush_burst_end blocks hs hx (m := 0) hbuf hblocks

end Sys2Proof.Machine

/-! PROOF. The statements of 44_hamming.md. The scan of R214 finds the one codeword at distance at most 1, since
codewords are 4 apart; there is one whenever the weight is odd, since the code is systematic. -/

namespace Sys2Proof.Machine

/-! ### The number of 1 bits (R13) -/

/-- An exclusive or loses, from both words, the positions they have in common. -/
theorem weight_xor_add (a b : Byte) : weight (a ^^^ b) + 2 * weight (a &&& b) = weight a + weight b := by
  have hbit : ∀ x y : Bool, (x ^^ y).toNat + 2 * (x && y).toNat = x.toNat + y.toNat := by decide
  simp only [weight, ← List.sum_map_mul_left, ← List.sum_map_add, BitVec.getLsbD_xor, BitVec.getLsbD_and, hbit]

theorem weight_eq_zero {v : Byte} : weight v = 0 ↔ v = 0#8 := by
  refine ⟨fun h => BitVec.eq_of_getLsbD_eq fun i hi => ?_, fun h => by rw [h]; rfl⟩
  have hall := List.sum_eq_zero_iff.mp h
  simpa [hi] using hall (v.getLsbD i).toNat (List.mem_map_of_mem (List.mem_range.mpr hi))

theorem weight_xor_triangle (a b c : Byte) : weight (a ^^^ b) ≤ weight (c ^^^ a) + weight (c ^^^ b) := by
  have hxor : (c ^^^ a) ^^^ (c ^^^ b) = a ^^^ b := by
    rw [BitVec.xor_comm c a, BitVec.xor_assoc, ← BitVec.xor_assoc c c b, BitVec.xor_self, BitVec.zero_xor]
  have hsum := weight_xor_add (c ^^^ a) (c ^^^ b)
  rw [hxor] at hsum
  omega

/-! ### The code (R210 to R212) -/

theorem ht_eq_hammingTable (n : Nibble) : ht n = hammingTable.getD n.toNat 0#8 := by
  revert n
  decide

/-- The parity equations are linear. -/
theorem ht_xor (m n : Nibble) : ht (m ^^^ n) = ht m ^^^ ht n := by
  revert m n
  decide

theorem weight_ht_even (n : Nibble) : weight (ht n) % 2 = 0 := by
  revert n
  decide

theorem four_le_weight_ht {n : Nibble} : n ≠ 0#4 → 4 ≤ weight (ht n) := by
  revert n
  decide

/-- R216 (d): by linearity, two codewords are as far apart as some codeword other than 0 is heavy. -/
theorem four_le_weight_ht_xor {m n : Nibble} (h : m ≠ n) : 4 ≤ weight (ht m ^^^ ht n) := by
  rw [← ht_xor]
  exact four_le_weight_ht fun h0 => h (BitVec.xor_eq_zero_iff.mp h0)

/-- The code is systematic (R211): the codeword of a word's high nibble differs from it in parity bits only. -/
theorem exists_xor_ht_eq_parity (c : Byte) : ∃ n e : Nibble, c ^^^ ht n = 0#4 ++ e := by
  refine ⟨c.extractLsb' 4 4, (c ^^^ ht (c.extractLsb' 4 4)).extractLsb' 0 4, ?_⟩
  revert c
  decide

theorem parity_near_ht (e : Nibble) :
    weight (0#4 ++ e : Byte) % 2 = 1 → ∃ n, weight ((0#4 ++ e : Byte) ^^^ ht n) = 1 := by
  revert e
  decide

/-- A word of odd weight is one bit from a codeword. Adding the codeword of its high nibble leaves parity bits of odd
weight, which are one bit from a codeword, and the sum of the two codewords is a codeword. -/
theorem odd_near_ht {c : Byte} (h : weight c % 2 = 1) : ∃ n, weight (c ^^^ ht n) = 1 := by
  obtain ⟨n, e, he⟩ := exists_xor_ht_eq_parity c
  have hodd : weight (0#4 ++ e : Byte) % 2 = 1 := by
    have hsum := weight_xor_add c (ht n)
    have heven := weight_ht_even n
    rw [← he]
    omega
  obtain ⟨m, hm⟩ := parity_near_ht e hodd
  exact ⟨n ^^^ m, by rw [ht_xor, ← BitVec.xor_assoc, he, hm]⟩

/-- The words at distance 2 or more from the code are the even ones outside it (R216 (f)). -/
theorem two_le_weight_xor_ht_iff {c : Byte} :
    (∀ n, 2 ≤ weight (c ^^^ ht n)) ↔ weight c % 2 = 0 ∧ ∀ n, c ≠ ht n := by
  constructor
  · refine fun hfar => ⟨?_, fun n hn => ?_⟩
    · by_contra hodd
      obtain ⟨n, hn⟩ := odd_near_ht (c := c) (by omega)
      have := hfar n
      omega
    · have := hfar n
      rw [hn, BitVec.xor_self, weight_eq_zero.mpr rfl] at this
      omega
  · rintro ⟨heven, hne⟩ n
    have hsum := weight_xor_add c (ht n)
    have hht := weight_ht_even n
    have hpos : weight (c ^^^ ht n) ≠ 0 := fun h0 => hne n (BitVec.xor_eq_zero_iff.mp (weight_eq_zero.mp h0))
    omega

/-! ### The scan (R214) -/

theorem nibbles_nodup : nibbles.Nodup := by decide

theorem mem_nibbles (n : Nibble) : n ∈ nibbles := by
  revert n
  decide

/-- Codewords at distance 2 or more leave the scan's candidate and count. -/
theorem hammingScan_append_far {c : Byte} {far : List Nibble} (h : ∀ n ∈ far, 2 ≤ weight (c ^^^ ht n))
    (rest : List Nibble) (cand : Option Nibble) (count : Nat) :
    hammingScan c (far ++ rest) cand count = hammingScan c rest cand count := by
  induction far with
  | nil => rfl
  | cons n far ih =>
    obtain ⟨hn, hfar⟩ := List.forall_mem_cons.mp h
    rw [List.cons_append, hammingScan, if_neg (by omega), if_neg (by omega), ih hfar]

/-- R216 (a), (b): the scan passes the other codewords, which are far, and keeps the near one, exact or not. -/
theorem hammingDecode_of_near {c : Byte} {n : Nibble} (h : weight (c ^^^ ht n) ≤ 1) : hammingDecode c = some n := by
  have hfar : ∀ m, m ≠ n → 2 ≤ weight (c ^^^ ht m) := fun m hm => by
    have hapart := four_le_weight_ht_xor hm
    have htri := weight_xor_triangle (ht m) (ht n) c
    omega
  obtain ⟨before, after, hsplit⟩ := List.append_of_mem (mem_nibbles n)
  have hnodup := nibbles_nodup
  rw [hsplit, List.nodup_middle, List.nodup_cons, List.mem_append, not_or] at hnodup
  obtain ⟨⟨hbefore, hafter⟩, -⟩ := hnodup
  rw [hammingDecode, hsplit, hammingScan_append_far fun m hm => hfar m (ne_of_mem_of_not_mem hm hbefore), hammingScan]
  rcases Nat.le_one_iff_eq_zero_or_eq_one.mp h with hexact | hone
  · rw [if_pos hexact]
  · rw [if_neg (by omega), if_pos hone, ← List.append_nil after,
      hammingScan_append_far fun m hm => hfar m (ne_of_mem_of_not_mem hm hafter)]
    rfl

theorem hammingDecode_of_far {c : Byte} (h : ∀ n, 2 ≤ weight (c ^^^ ht n)) : hammingDecode c = none := by
  rw [hammingDecode, ← List.append_nil nibbles, hammingScan_append_far fun n _ => h n]
  rfl

theorem hammingDecode_eq_none_iff {c : Byte} :
    hammingDecode c = none ↔ weight c % 2 = 0 ∧ ∀ n, c ≠ ht n := by
  rw [← two_le_weight_xor_ht_iff]
  refine ⟨fun h n => ?_, hammingDecode_of_far⟩
  by_contra hn
  rw [hammingDecode_of_near (n := n) (by omega)] at h
  cases h

/-- R216 (f), as the check the counts evaluate. -/
theorem hammingDecode_isNone (c : Byte) :
    (hammingDecode c).isNone = decide (weight c % 2 = 0 ∧ ∀ n : Nibble, c ≠ ht n) := by
  rw [Bool.eq_iff_iff, Option.isNone_iff_eq_none, decide_eq_true_iff, hammingDecode_eq_none_iff]

/-! ### The operations (R213, R215) -/

/-- The status `OK` is 0, so the response word is the value. -/
theorem responseWord_ok_setWidth {w : Nat} (x : BitVec w) (h : w ≤ 16) :
    responseWord .ok (x.setWidth 16) = x.setWidth 32 := by
  rw [← BitVec.setWidth_setWidth (x := x) (v := 16) (w := 32) (by omega)]
  exact (BitVec.setWidth_eq_append (x := x.setWidth 16) (by decide : 16 ≤ 32)).symm

/-- Settles O53: the equations give the table entry by entry, and the response is the looked-up codeword. -/
theorem hencRespondsTable : Obligations.HencRespondsTable := by
  unfold Obligations.HencRespondsTable
  refine ⟨ht_eq_hammingTable, by decide, fun n s => ?_⟩
  rw [← ht_eq_hammingTable, ← responseWord_ok_setWidth (ht n) (by decide)]
  rfl

/-- Settles O54: the scan's result at distance at most 1 and at distance 2 or more, each with its answer. -/
theorem hdecFindsNearCodeword : Obligations.HdecFindsNearCodeword := by
  unfold Obligations.HdecFindsNearCodeword
  intro c s
  simp only [← ht_eq_hammingTable, exec, execHdec]
  refine ⟨fun n hnear => ?_, fun hfar => ?_⟩
  · rw [hammingDecode_of_near hnear, ← responseWord_ok_setWidth n (by decide)]
    rfl
  · rw [hammingDecode_of_far hfar]
    rfl

/-- Settles O55: the scan fails on the words far from the code, which are the even ones outside it; the counts are
evaluated from that description. -/
theorem uncorrectableInputs : Obligations.UncorrectableInputs := by
  unfold Obligations.UncorrectableInputs
  refine ⟨fun c => hammingDecode_eq_none_iff, ?_, by decide +kernel, fun m n => four_le_weight_ht_xor⟩
  simp only [hammingDecode_isNone]
  decide +kernel

end Sys2Proof.Machine


/-! PROOF. The statements of 60_exceptions.md: an error is precise, and what a reserved operation code and a bad payload
word of an admitted block are answered. -/

namespace Sys2Proof.Machine

/-! ### Errors are precise (R252) -/

/-- Settles O22: the trace ends in the command's answer, so its status is not `OK`, and then the command's body is the
state itself. -/
theorem errorsChangeNothing : Obligations.ErrorsChangeNothing := by
  unfold Obligations.ErrorsChangeNothing
  intro i s t evs w hv h htrace herror
  obtain ⟨m, st, v, hm, hb⟩ := exec_effect i s (frameSize_pos hv)
  obtain rfl : answered m st v i.length = t := by simpa [hm] using h
  rw [advance_trace, respond_trace] at htrace
  obtain ⟨hevs, hw⟩ := List.append_inj' htrace rfl
  obtain rfl : responseWord st v = w := by simpa using hw
  have hst : st ≠ .ok := by
    rintro rfl
    exact herror (respStat_responseWord .ok v)
  obtain rfl := hb.precise hst
  exact ⟨List.self_eq_append_right.mp hevs, rfl⟩

/-! ### Reserved operation codes (R253) -/

/-- A code is reserved when it is the code of no operation (R92). -/
theorem ofCode_eq_none {v : Byte} : Op.ofCode v = none ↔ ∀ op : Op, v ≠ op.code := by
  simp only [Option.eq_none_iff_forall_ne_some, ne_eq, ofCode_eq_some]

/-- The response word of `ILLEGAL_OPCODE`, whose value is the code (R96, R251). -/
theorem responseWord_illegalOpcode (code : Byte) :
    responseWord .illegalOpcode (code.setWidth 16) = 0x10000000#32 ||| code.setWidth 32 := by
  revert code
  decide

/-- Settles O8: the code is none of the thirteen, so the decoder rejects the word and the error is raised over one
word. -/
theorem reservedOpcodeAnswered : Obligations.ReservedOpcodeAnswered := by
  unfold Obligations.ReservedOpcodeAnswered
  intro s w rest hv hw hcode
  have hreserved : Op.ofCode (opc w) = none := by
    rw [ofCode_eq_none]
    intro op hop
    refine hcode (hop ▸ ?_)
    cases op <;> decide
  have hf : fetch s = .error (.illegalOpcode (opc w)) := by rw [fetch, hw, decode_of_reserved hreserved]
  rw [step_of_rejected hv hf, ← responseWord_illegalOpcode]
  rfl

/-! ### Payload errors of a block (R254) -/

/-- An admitted block with a reserved payload bit set is answered `ILLEGAL_FIELD`, and leaves all else as it was
(R254, R260). -/
theorem exec_push_unclean {pay : List Word} {s : State} {i : Instr} (hi : i = .spush pay ∨ i = .rxpush pay)
    (h : s.admits pay.length = true) (hbad : payloadClean pay = false) :
    exec i s = .next (answered s .illegalField 1#16 (1 + pay.length)) := by
  obtain rfl | rfl := hi
  · rw [exec, execSpush, if_pos h, if_neg (by simp [hbad]), raise_eq]
  · rw [exec, execRxpush, if_pos h, if_neg (by simp [hbad]), raise_eq]

/-- Settles O49: the block is admitted and its payload is not clean. -/
theorem blockPayloadErrorAnswered : Obligations.BlockPayloadErrorAnswered := by
  unfold Obligations.BlockPayloadErrorAnswered
  intro pay s i hi hpos hfits hbad
  exact exec_push_unclean hi (admits_of hpos hfits) (payloadClean_eq_false.mpr hbad)

end Sys2Proof.Machine


/-! PROOF. The statement of 70_reset_and_hazards.md: which transmitted tones hold two consecutive zeros. -/

namespace Sys2Proof.Machine

/-! ### Two consecutive zeros (R290) -/

/-- A list has no two consecutive zeros when no sample next to a zero is one. -/
theorem hasZeroPair_eq_false_iff {l : List Sample} :
    hasZeroPair l = false ↔ l.IsChain fun a b => a = 0#16 → b ≠ 0#16 := by
  match l with
  | [] => simp [hasZeroPair]
  | [_] => simp [hasZeroPair]
  | a :: b :: rest =>
    rw [List.isChain_cons_cons, ← hasZeroPair_eq_false_iff]
    simp [hasZeroPair]

/-- No pair of zeros arises where a list that starts with no zero is appended. -/
theorem hasZeroPair_append {l m : List Sample} (hl : hasZeroPair l = false) (hm : hasZeroPair m = false)
    (hhead : m.head? ≠ some 0#16) : hasZeroPair (l ++ m) = false := by
  rw [hasZeroPair_eq_false_iff] at *
  refine List.isChain_append.mpr ⟨hl, hm, fun _ _ b hb _ => ?_⟩
  rintro rfl
  exact hhead hb

theorem hasZeroPair_toneFrame_eq_false_iff {c : Cfg} {s : Bit} :
    hasZeroPair (toneFrame c s) = false ↔
      ∀ n < c.frameSize - 1, tone c s n = 0#16 → tone c s (n + 1) ≠ 0#16 := by
  rw [hasZeroPair_eq_false_iff, toneFrame, List.isChain_map, List.isChain_range]

theorem hasZeroPair_toneFrame_of_zeros {c : Cfg} {s : Bit} {n : Nat} (hn : n + 1 < c.frameSize)
    (h : tone c s n = 0#16) (hnext : tone c s (n + 1) = 0#16) : hasZeroPair (toneFrame c s) = true := by
  by_contra hpair
  rw [Bool.not_eq_true, hasZeroPair_toneFrame_eq_false_iff] at hpair
  exact hpair n (by omega) h hnext

/-- Frames with no pair of zeros, sent one after another, have none: each starts with the amplitude (R291). -/
theorem hasZeroPair_flatMap_toneFrame {c : Cfg} (hc : c.valid = true)
    (hpair : ∀ y, hasZeroPair (toneFrame c y) = false) (symbols : List Bit) :
    hasZeroPair (symbols.flatMap (toneFrame c)) = false := by
  induction symbols with
  | nil => rfl
  | cons y symbols ih =>
    rw [List.flatMap_cons]
    exact hasZeroPair_append (hpair y) ih (flatMap_toneFrame_head?_ne_zero hc symbols)

/-! ### The zeros of the default tones (R291) -/

theorem tone_eq_zero_iff {c : Cfg} {s : Bit} {n : Nat} : tone c s n = 0#16 ↔ (tone c s n).toInt = 0 := by
  rw [← BitVec.toInt_inj, BitVec.toInt_zero]

/-- In the first quarter turn a sample does not fall when the amplitude grows: the cosine is not negative. -/
theorem nearestCos_mono_amp {a b h d : Nat} (hab : a ≤ b) (hb : b < 2 ^ 15) (hd : 0 < d) (hh : 2 * h ≤ d) :
    nearestCos a h d ≤ nearestCos b h d := by
  have hcos := cos_nonneg_of_quarter hd hh
  have hcast : (nearestCos a h d : ℤ) ≤ nearestCos b h d := by
    rw [nearestCos_eq (hab.trans_lt hb) hd hh, nearestCos_eq hb hd hh]
    gcongr
  exact_mod_cast hcast

/-- From amplitude 4 on, no sample within nine fortieths of a turn from the peak is 0: at amplitude 4 none is. -/
theorem nearestCos_pos {amp j : Nat} (hmin : 4 ≤ amp) (hmax : amp < 2 ^ 15) (hj : j ≤ 9) :
    0 < nearestCos amp (2400 * j) 48000 := by
  have hrow : (4, [4, 4, 4, 4, 3, 3, 2, 2, 1, 1, 0]) ∈ quarters40 := by decide
  have htable : ∀ j ≤ 9, (0 : ℤ) < [4, 4, 4, 4, 3, 3, 2, 2, 1, 1, 0].getD j 0 := by decide
  have hfour : (0 : ℤ) < nearestCos 4 (2400 * j) 48000 :=
    (htable j hj).trans_eq (nearestCos_quarters40 _ hrow j (by omega)).symm
  exact (Int.natCast_pos.mp hfour).trans_le (nearestCos_mono_amp hmin hmax (by omega) (by omega))

/-- From amplitude 4 on, the only zero of the half turn is at the quarter turn. -/
theorem roundedCos_eq_zero {amp j : Nat} (hmin : 4 ≤ amp) (hmax : amp < 2 ^ 15) (hj : j ≤ 20)
    (h : roundedCos amp (2400 * j) 48000 = 0) : j = 10 := by
  unfold roundedCos at h
  by_contra hne
  rcases Nat.lt_or_gt_of_ne hne with hlt | hgt
  · have hpos := nearestCos_pos hmin hmax (j := j) (by omega)
    rw [if_pos (by omega)] at h
    omega
  · have hpos := nearestCos_pos hmin hmax (j := 20 - j) (by omega)
    rw [if_neg (by omega), show 48000 - 2400 * j = 2400 * (20 - j) by omega] at h
    omega

/-- From amplitude 4 on, a sample at `k` fortieths of a turn is 0 only at the quarter and at the three quarters. -/
theorem toneInt_eq_zero {c : Cfg} {s : Bit} {n k : Nat} (hmin : 4 ≤ c.amp) (hmax : c.amp < 2 ^ 15)
    (hrate : c.sampleRate = 48000) (hphase : c.toneFreq s * n % 48000 = 1200 * (k % 40)) (h : toneInt c s n = 0) :
    k % 20 = 10 := by
  have hfold : 2 * min (1200 * (k % 40)) (48000 - 1200 * (k % 40)) = 2400 * min (k % 40) (40 - k % 40) := by omega
  rw [toneInt, hrate, hphase, hfold] at h
  have hquarter := roundedCos_eq_zero hmin hmax (by omega) h
  omega

section default_tones

variable {c : Cfg} (hc : c.valid = true) (hrate : c.sampleRate = 48000)
include hc hrate

/-- From amplitude 4 on, the zeros of the mark tone stand twenty samples apart. -/
theorem mark_zero_index (hmark : c.fMark = 1200) (hamp : 4 ≤ c.amp) {n : Nat} (h : tone c true n = 0#16) :
    n % 20 = 10 := by
  rw [tone_eq_zero_iff, toInt_tone hc] at h
  exact toneInt_eq_zero hamp (amp_lt_of_valid hc) hrate (by rw [Cfg.toneFreq, if_pos rfl, hmark]; omega) h

/-- From amplitude 4 on, the zeros of the space tone stand ten samples apart. -/
theorem space_zero_index (hspace : c.fSpace = 2400) (hamp : 4 ≤ c.amp) {n : Nat} (h : tone c false n = 0#16) :
    n % 10 = 5 := by
  rw [tone_eq_zero_iff, toInt_tone hc] at h
  have hturn := toneInt_eq_zero (k := 2 * n) hamp (amp_lt_of_valid hc) hrate
    (by rw [Cfg.toneFreq, if_neg (by decide), hspace]; omega) h
  omega

/-- From amplitude 4 on, no frame of the default tones has two consecutive zeros. -/
theorem hasZeroPair_toneFrame_of_four_le (hmark : c.fMark = 1200) (hspace : c.fSpace = 2400) (hamp : 4 ≤ c.amp)
    (y : Bit) : hasZeroPair (toneFrame c y) = false := by
  rw [hasZeroPair_toneFrame_eq_false_iff]
  intro n _ hzero hnext
  cases y with
  | true =>
    have := mark_zero_index hc hrate hmark hamp hzero
    have := mark_zero_index hc hrate hmark hamp hnext
    omega
  | false =>
    have := space_zero_index hc hrate hspace hamp hzero
    have := space_zero_index hc hrate hspace hamp hnext
    omega

end default_tones

/-- At the amplitudes 1 to 3 the table of R123 has zeros at 9 and 10. -/
theorem quarters40_zeros_of_amp_le_three {amp : Nat} (hmin : 1 ≤ amp) (hmax : amp ≤ 3) :
    ∃ row ∈ quarters40, amp = row.1 ∧ c40 row.2 9 = 0 ∧ c40 row.2 10 = 0 := by
  interval_cases amp <;> decide

/-- Settles O29: from amplitude 4 on the zeros stand ten samples apart or more, and a frame starts with none; below, the
table of R123 holds the two zeros of the mark frame at 9 and 10 and, at amplitude 1, of the space frame at 4 and 5. -/
theorem zeroPairsInTones : Obligations.ZeroPairsInTones := by
  unfold Obligations.ZeroPairsInTones
  intro c hc hrate hmark hspace
  refine ⟨fun hamp => ?_, fun hamp hlen => ?_, fun hamp hlen => ?_⟩
  · have hframes := hasZeroPair_toneFrame_of_four_le hc hrate hmark hspace hamp
    exact ⟨hframes, hasZeroPair_flatMap_toneFrame hc hframes⟩
  · obtain ⟨-, -, -, hpos, -⟩ := (cfg_valid_iff c).mp hc
    obtain ⟨row, hrow, hkey, hnine, hten⟩ := quarters40_zeros_of_amp_le_three hpos hamp
    have hmarks n := (toneContentsAtDefaultTones c n hrate hmark hspace row hrow hkey).1
    apply hasZeroPair_toneFrame_of_zeros (n := 9) hlen
    · rw [tone_eq_zero_iff, hmarks]
      exact hnine
    · rw [tone_eq_zero_iff, hmarks]
      exact hten
  · have hrow : (1, [1, 1, 1, 1, 1, 1, 1, 0, 0, 0, 0]) ∈ quarters40 := by decide
    have hspaces n := (toneContentsAtDefaultTones c n hrate hmark hspace _ hrow hamp).2
    apply hasZeroPair_toneFrame_of_zeros (n := 4) hlen
    · rw [tone_eq_zero_iff, hspaces]
      decide
    · rw [tone_eq_zero_iff, hspaces]
      decide

end Sys2Proof.Machine
